-- ==== Sys2Proof/Word.lean ====
section
/-! DEFINITION. The two word types of the machine: bytes of memory (R50) and 32-bit registers and
addresses (R20, R9). Arithmetic on them is the core library's, modulo 2^8 and 2^32. -/

namespace Sys2Proof

/-- One byte: a memory cell's contents, an opcode byte or a ModRM byte (R50, R80). -/
abbrev Byte := BitVec 8

/-- One 32-bit word: a register value or an address (R20, R9). -/
abbrev Word := BitVec 32

end Sys2Proof
end

