-- ==== Sys2Proof/Machine/Bytes.lean ====
section
/-! DEFINITION. Byte order: big-endian words and half-words as bytes (R52, R53, R59, R84). Decided here once,
for memory, for trailing bytes and for emitted images. -/

namespace Sys2Proof

/-- `b0 ++ b1`, the byte at the lowest address most significant (R52, R84). -/
def beHalf (b0 b1 : Byte) : BitVec 16 := b0 ++ b1

/-- `b0 ++ b1 ++ b2 ++ b3`, the byte at the lowest address most significant (R52, R84). -/
def beWord (b0 b1 b2 b3 : Byte) : Word := b0 ++ b1 ++ b2 ++ b3

/-- Byte `k` of a word counted from the least significant: `v[8k+7:8k]`. -/
def byteOf (v : Word) (k : Nat) : Byte := v.extractLsb' (8 * k) 8

/-- The bytes of a half-word, most significant first (R53, R94). -/
def halfBytes (v : BitVec 16) : List Byte := [v.extractLsb' 8 8, v.extractLsb' 0 8]

/-- The bytes of a word, most significant first (R53, R94). -/
def wordBytes (v : Word) : List Byte := [byteOf v 3, byteOf v 2, byteOf v 1, byteOf v 0]

end Sys2Proof
end

