-- ==== Sys2Proof/Config.lean ====
section
/-! DEFINITION. The parameters the spec leaves to construction time (R6, R9), as plain data fixed for a
run, and the free value of the model: the byte drawn by a first touch (R56). -/

namespace Sys2Proof

/-- `INIT_REGS` of R9: the values of F0 to F6 when a run starts (D4: open). -/
structure InitRegs where
  f0 : Word
  f1 : Word
  f2 : Word
  f3 : Word
  f4 : Word
  f5 : Word
  f6 : Word
  deriving DecidableEq, Repr

/-- The configuration inputs of R6 and R9. "Fixed 32-bit constants configured at construction":
no step writes them. The machine carries them in its state as data (log 1), so that a statement about every
state is a statement about every choice of the parameters. -/
structure Config where
  /-- `LOAD_BASE`: the address of the first image byte and the initial XX (D6: open). -/
  loadBase : Word
  /-- `RET_SENTINEL`: the program-counter value that ends the run (D7: open). -/
  retSentinel : Word
  /-- `DBG_SENTINEL`: the program-counter value that runs the debug trap (D7: open). -/
  dbgSentinel : Word
  /-- `OPC_KRZ8I` (D8). -/
  opcKrz8i : Byte
  /-- `OPC_KRZ16I` (D8). -/
  opcKrz16i : Byte
  /-- `OPC_KRZ8C` (D8). -/
  opcKrz8c : Byte
  /-- `OPC_KRZ16C` (D8). -/
  opcKrz16c : Byte
  /-- `INIT_REGS` (D4: open). -/
  initRegs : InitRegs
  deriving DecidableEq, Repr

/-- The parameters `State.reset` is built with. DESIGN CHOICE, unsafe (log 2, log 3, log 4): the spec leaves
`LOAD_BASE`, the sentinels and `INIT_REGS` open; the first three are the example values of
95_test_vectors.md, the registers are zero; the opcode bytes are the spec's defaults (R99). -/
def Config.atReset : Config where
  loadBase := 0x00010000
  retSentinel := 0xFFFFFF00
  dbgSentinel := 0xFFFFFF10
  opcKrz8i := 0x30
  opcKrz16i := 0x31
  opcKrz8c := 0x32
  opcKrz16c := 0x33
  initRegs := { f0 := 0, f1 := 0, f2 := 0, f3 := 0, f4 := 0, f5 := 0, f6 := 0 }

/-- `draw()` of R56, a FREE VALUE (log 5): the byte that the first touch of the address `a` assigns in the run that
`seed` selects. It has no body, so nothing can be proved of its values: "a claim about a program must hold for
every drawn byte". It is indexed by the address because an address is first-touched at most once in a run and
the draws are "independent of the order in which first touches happen". -/
opaque Config.draw (seed : Nat) (a : Word) : Byte

end Sys2Proof
end

