-- ==== Sys2Proof/Syntax.lean ====
section
/-! DEFINITION. The instructions and their operands (R80, R86, R99, R101), the operand descriptor of the codec
(R88), and the assembler's symbolic operands and source items (R230, R232, R236 to R238). -/

namespace Sys2Proof

/-- The eight registers of R20, selected by a 3-bit index; XX is the program counter (R21). -/
inductive Reg where
  | F0 | F1 | F2 | F3 | F4 | F5 | F6 | XX
  deriving DecidableEq, Repr

/-- The memory forms of R86, whose effective addresses R141 gives. The displacement has the width of the mode's
trailing bytes. -/
inductive MemForm where
  /-- mode 0x10: memory at `x[r]` -/
  | regInd (r : Reg)
  /-- mode 0x14: memory at `x[r] + disp8` -/
  | regDisp8 (r : Reg) (d : BitVec 8)
  /-- mode 0x15: memory at `x[r] + disp16` -/
  | regDisp16 (r : Reg) (d : BitVec 16)
  /-- mode 0x16: memory at `x[r] + disp32` -/
  | regDisp32 (r : Reg) (d : BitVec 32)
  /-- modes 0x18 to 0x1F: memory at `x[base] + x[index]` -/
  | regReg (base index : Reg)
  deriving DecidableEq, Repr

/-- What may stand in a destination position: "destinations must be register or memory forms" (R102). An
immediate destination cannot be written in this type; the decoder raises ImmediateDestination for it (R137). -/
inductive Loc where
  /-- mode 0x00: the register `x[r]` -/
  | reg (r : Reg)
  | mem (m : MemForm)
  deriving DecidableEq, Repr

/-- An operand with a valid mode (R86). The immediate forms keep the `reg` field they were encoded with: it is
"decoded and kept in the descriptor but has no effect on the operand's value" (R92). -/
inductive Operand where
  /-- mode 0x04 -/
  | imm8 (sel : Reg) (v : BitVec 8)
  /-- mode 0x05 -/
  | imm16 (sel : Reg) (v : BitVec 16)
  /-- mode 0x06 -/
  | imm32 (sel : Reg) (v : BitVec 32)
  | loc (l : Loc)
  deriving DecidableEq, Repr

/-- The 27 instructions of R99, one constructor a row of opcode_table.json, operands in encoding order. -/
inductive Instr where
  | ata (a : Operand) (b : Loc)
  | nta (a : Operand) (b : Loc)
  | ada (a : Operand) (b : Loc)
  | ekc (a : Operand) (b : Loc)
  | dto (a : Operand) (b : Loc)
  | dro (a : Operand) (b : Loc)
  | dtosna (a : Operand) (b : Loc)
  | dal (a : Operand) (b : Loc)
  | krz (a : Operand) (b : Loc)
  | malkrz (a : Operand) (b : Loc)
  | llonys (a b : Operand)
  | xtlonys (a b : Operand)
  | xolonys (a b : Operand)
  | xylonys (a b : Operand)
  | clo (a b : Operand)
  | niv (a b : Operand)
  | llo (a b : Operand)
  | xtlo (a b : Operand)
  | xolo (a b : Operand)
  | xylo (a b : Operand)
  | inj (a : Operand) (b c : Loc)
  | lat (a : Operand) (b c : Loc)
  | latsna (a : Operand) (b c : Loc)
  | krz8i (a : Operand) (b : Loc)
  | krz16i (a : Operand) (b : Loc)
  | krz8c (a : Operand) (b : Loc)
  | krz16c (a : Operand) (b : Loc)
  deriving DecidableEq, Repr

/-- The instruction kinds: the "closed enumeration" the dispatch mux maps opcode bytes to (R134). -/
inductive Kind where
  | ata | nta | ada | ekc | dto | dro | dtosna | dal | krz | malkrz
  | llonys | xtlonys | xolonys | xylonys | clo | niv | llo | xtlo | xolo | xylo
  | inj | lat | latsna | krz8i | krz16i | krz8c | krz16c
  deriving DecidableEq, Repr

/-- The position of an operand: a, b or c (R80). -/
inductive OperandPos where
  | a | b | c
  deriving DecidableEq, Repr

/-- The classes of the 32 mode values (R86). -/
inductive ModeClass where
  | regDirect | imm8 | imm16 | imm32 | regInd | regDisp8 | regDisp16 | regDisp32 | regReg | invalid
  deriving DecidableEq, Repr

/-- The decoded operand descriptor `{reg, mode, value}` (R88). -/
structure Descriptor where
  reg : BitVec 3
  mode : BitVec 5
  value : Word
  deriving DecidableEq, Repr

/-- A label's name. Tokenization is out of scope (R3), so a name is an identity only, a number (log 14). -/
abbrev LabelName := Nat

/-- "Exactly one of bare value, register, label is set" (R230). -/
inductive SymBase where
  | value (v : Word)
  | register (r : Reg)
  | label (n : LabelName)
  deriving DecidableEq, Repr

/-- The mutually exclusive modifiers of a symbolic operand (R230). -/
inductive SymModifier where
  | none
  | address
  | secondRegister (r2 : Reg)
  | displacement (d : Word)
  deriving DecidableEq, Repr

/-- A symbolic operand of the assembler (R230). -/
structure SymOperand where
  base : SymBase
  modifier : SymModifier
  deriving DecidableEq, Repr

/-- A symbolic instruction: a mnemonic and its operands in encoding order (R232, R245). -/
structure SymInstr where
  kind : Kind
  operands : List SymOperand
  deriving DecidableEq, Repr

/-- One item of assembler source: an instruction, a prefix label `Nll name` (R237) or a suffix label `L name`
(R238). -/
inductive SourceItem where
  | instr (i : SymInstr)
  | nll (n : LabelName)
  | suffixL (n : LabelName)
  deriving DecidableEq, Repr

end Sys2Proof
end

