-- ==== Sys2Proof/Machine/Tables.lean ====
section
/-! DEFINITION. The spec's tables: register indices (R20), the mode table (R83, R86), the opcode map (R99) and the
dispatch mux's descriptors (R101, R134). The decoder, the encoder and the assembler all read these. -/

namespace Sys2Proof

/-- The 3-bit index of a register (R20; the pairing is the spec's decision D2). -/
def Reg.index : Reg → BitVec 3
  | .F0 => 0 | .F1 => 1 | .F2 => 2 | .F3 => 3 | .F4 => 4 | .F5 => 5 | .F6 => 6 | .XX => 7

/-- The register a 3-bit `reg` field selects (R20). -/
def Reg.ofIndex (i : BitVec 3) : Reg :=
  match i.toNat with
  | 0 => .F0 | 1 => .F1 | 2 => .F2 | 3 => .F3 | 4 => .F4 | 5 => .F5 | 6 => .F6 | _ => .XX

/-- The class of a mode value: the table of R86. -/
def modeClass (mode : BitVec 5) : ModeClass :=
  match mode.toNat with
  | 0x00 => .regDirect
  | 0x04 => .imm8
  | 0x05 => .imm16
  | 0x06 => .imm32
  | 0x10 => .regInd
  | 0x14 => .regDisp8
  | 0x15 => .regDisp16
  | 0x16 => .regDisp32
  | 0x18 | 0x19 | 0x1A | 0x1B | 0x1C | 0x1D | 0x1E | 0x1F => .regReg
  | _ => .invalid

/-- `T(mode)`: the number of trailing bytes, from the low nibble of `mode` alone (R83). -/
def trailing (mode : BitVec 5) : Nat :=
  match (mode.extractLsb' 0 4).toNat with
  | 0x4 => 1
  | 0x5 => 2
  | 0x6 => 4
  | _ => 0

/-- The opcode byte of an instruction kind: the map of R99, the four extended bytes from the parameters. -/
def opcode (cfg : Config) : Kind → Byte
  | .ata => 0x00
  | .nta => 0x01
  | .ada => 0x02
  | .ekc => 0x03
  | .dto => 0x04
  | .dro => 0x05
  | .dtosna => 0x06
  | .dal => 0x07
  | .krz => 0x08
  | .malkrz => 0x09
  | .llonys => 0x10
  | .xtlonys => 0x11
  | .xolonys => 0x12
  | .xylonys => 0x13
  | .clo => 0x16
  | .niv => 0x17
  | .llo => 0x18
  | .xtlo => 0x19
  | .xolo => 0x1A
  | .xylo => 0x1B
  | .inj => 0x20
  | .lat => 0x28
  | .latsna => 0x29
  | .krz8i => cfg.opcKrz8i
  | .krz16i => cfg.opcKrz16i
  | .krz8c => cfg.opcKrz8c
  | .krz16c => cfg.opcKrz16c

/-- All 27 kinds, in the order of R99. -/
def Kind.all : List Kind :=
  [.ata, .nta, .ada, .ekc, .dto, .dro, .dtosna, .dal, .krz, .malkrz] ++
  [.llonys, .xtlonys, .xolonys, .xylonys, .clo, .niv, .llo, .xtlo, .xolo, .xylo] ++
  [.inj, .lat, .latsna, .krz8i, .krz16i, .krz8c, .krz16c]

/-- `Dispatch` (R134): the kind whose opcode byte is exactly `op`, or none, which is `Unrecognized` (R100). -/
def dispatch (cfg : Config) (op : Byte) : Option Kind :=
  Kind.all.find? fun k => opcode cfg k == op

/-- The operand roles of a kind (R101), together with the instruction they build: a source and a destination, two
sources, or a source and two destinations. -/
inductive Form where
  | srcDst (mk : Operand → Loc → Instr)
  | srcSrc (mk : Operand → Operand → Instr)
  | srcDstDst (mk : Operand → Loc → Loc → Instr)

/-- The dispatch mux's descriptor of a kind: its roles and its instruction (R101, R134). -/
def Kind.form : Kind → Form
  | .ata => .srcDst .ata
  | .nta => .srcDst .nta
  | .ada => .srcDst .ada
  | .ekc => .srcDst .ekc
  | .dto => .srcDst .dto
  | .dro => .srcDst .dro
  | .dtosna => .srcDst .dtosna
  | .dal => .srcDst .dal
  | .krz => .srcDst .krz
  | .malkrz => .srcDst .malkrz
  | .llonys => .srcSrc .llonys
  | .xtlonys => .srcSrc .xtlonys
  | .xolonys => .srcSrc .xolonys
  | .xylonys => .srcSrc .xylonys
  | .clo => .srcSrc .clo
  | .niv => .srcSrc .niv
  | .llo => .srcSrc .llo
  | .xtlo => .srcSrc .xtlo
  | .xolo => .srcSrc .xolo
  | .xylo => .srcSrc .xylo
  | .inj => .srcDstDst .inj
  | .lat => .srcDstDst .lat
  | .latsna => .srcDstDst .latsna
  | .krz8i => .srcDst .krz8i
  | .krz16i => .srcDst .krz16i
  | .krz8c => .srcDst .krz8c
  | .krz16c => .srcDst .krz16c

/-- The number of operands (R99). -/
def Kind.arity (k : Kind) : Nat :=
  match k.form with
  | .srcDst _ => 2
  | .srcSrc _ => 2
  | .srcDstDst _ => 3

/-- Whether a position of a kind is a destination position (R101). -/
def Kind.isDestination (k : Kind) (p : OperandPos) : Bool :=
  match k.form, p with
  | .srcDst _, .b => true
  | .srcDstDst _, .b => true
  | .srcDstDst _, .c => true
  | _, _ => false

/-- The ten comparisons, the only instructions whose flag update keeps a result (R146). -/
def Kind.isComparison (k : Kind) : Bool :=
  match k.form with
  | .srcSrc _ => true
  | _ => false

/-- The instructions whose operand a may be a label (R235). -/
def Kind.takesLabel : Kind → Bool
  | .krz => true
  | .malkrz => true
  | .inj => true
  | _ => false

/-- The kind of an instruction. -/
def Instr.kind : Instr → Kind
  | .ata _ _ => .ata
  | .nta _ _ => .nta
  | .ada _ _ => .ada
  | .ekc _ _ => .ekc
  | .dto _ _ => .dto
  | .dro _ _ => .dro
  | .dtosna _ _ => .dtosna
  | .dal _ _ => .dal
  | .krz _ _ => .krz
  | .malkrz _ _ => .malkrz
  | .llonys _ _ => .llonys
  | .xtlonys _ _ => .xtlonys
  | .xolonys _ _ => .xolonys
  | .xylonys _ _ => .xylonys
  | .clo _ _ => .clo
  | .niv _ _ => .niv
  | .llo _ _ => .llo
  | .xtlo _ _ => .xtlo
  | .xolo _ _ => .xolo
  | .xylo _ _ => .xylo
  | .inj _ _ _ => .inj
  | .lat _ _ _ => .lat
  | .latsna _ _ _ => .latsna
  | .krz8i _ _ => .krz8i
  | .krz16i _ _ => .krz16i
  | .krz8c _ _ => .krz8c
  | .krz16c _ _ => .krz16c

/-- The operands of an instruction in encoding order (R80). -/
def Instr.operands : Instr → List Operand
  | .ata a b => [a, .loc b]
  | .nta a b => [a, .loc b]
  | .ada a b => [a, .loc b]
  | .ekc a b => [a, .loc b]
  | .dto a b => [a, .loc b]
  | .dro a b => [a, .loc b]
  | .dtosna a b => [a, .loc b]
  | .dal a b => [a, .loc b]
  | .krz a b => [a, .loc b]
  | .malkrz a b => [a, .loc b]
  | .llonys a b => [a, b]
  | .xtlonys a b => [a, b]
  | .xolonys a b => [a, b]
  | .xylonys a b => [a, b]
  | .clo a b => [a, b]
  | .niv a b => [a, b]
  | .llo a b => [a, b]
  | .xtlo a b => [a, b]
  | .xolo a b => [a, b]
  | .xylo a b => [a, b]
  | .inj a b c => [a, .loc b, .loc c]
  | .lat a b c => [a, .loc b, .loc c]
  | .latsna a b c => [a, .loc b, .loc c]
  | .krz8i a b => [a, .loc b]
  | .krz16i a b => [a, .loc b]
  | .krz8c a b => [a, .loc b]
  | .krz16c a b => [a, .loc b]

end Sys2Proof
end

