-- ==== Sys2Proof/WellFormed.lean ====
section
/-! DEFINITION. Well-formedness checks, each decidable. A term of `Instr` needs none: its types admit exactly
the valid modes, values of the mode's own width and destinations that are registers or memory (R86, R102), so
every term of it is a well-formed instruction. What can be ill formed is checked here: the parameters (R9), a
raw operand descriptor (R86, R93) and a symbolic instruction of the assembler (R231, R234, R235). -/

namespace Sys2Proof

/-- The constraints of R9: the sentinels differ, and the 27 opcode bytes are pairwise distinct (the extended ones
differ from each other and from the 23 base opcodes). -/
def Config.wellFormed (cfg : Config) : Bool :=
  decide (cfg.retSentinel ≠ cfg.dbgSentinel) && decide ((Kind.all.map (opcode cfg)).Nodup)

/-- A descriptor the round-trip law of R93 speaks of: a valid mode (R86), and a value that fits in the
trailing bytes, or is the index selector of RegReg, or is 0 where the slot carries nothing (R88). -/
def Descriptor.wellFormed (d : Descriptor) : Bool :=
  match modeClass d.mode with
  | .invalid => false
  | .regDirect => d.value == 0
  | .regInd => d.value == 0
  | .regReg => d.value == (d.mode.extractLsb' 0 3).setWidth 32
  | .imm8 => decide (d.value.toNat < 2 ^ 8)
  | .regDisp8 => decide (d.value.toNat < 2 ^ 8)
  | .imm16 => decide (d.value.toNat < 2 ^ 16)
  | .regDisp16 => decide (d.value.toNat < 2 ^ 16)
  | .imm32 => true
  | .regDisp32 => true

/-- Whether a symbolic operand is a label reference (R230). -/
def SymOperand.isLabel (o : SymOperand) : Bool :=
  match o.base with
  | .label _ => true
  | _ => false

/-- Whether a symbolic operand names a register: a register or memory form, what a destination may be (R234). -/
def SymOperand.isRegister (o : SymOperand) : Bool :=
  match o.base with
  | .register _ => true
  | _ => false

/-- The six shapes that encode (R231): the four of a register, a bare value and a bare label. -/
def SymOperand.shapeOk (o : SymOperand) : Bool :=
  o.isRegister || decide (o.modifier = .none)

/-- What R234 and R235 ask of the operand in position `p` of a kind: an encodable shape, no immediate or label as
a destination, and a label only as operand a of KRZ, MALKRZ and INJ. -/
def SymOperand.fits (k : Kind) (p : OperandPos) (o : SymOperand) : Bool :=
  o.shapeOk && (!k.isDestination p || o.isRegister) &&
    (!o.isLabel || (decide (p = .a) && k.takesLabel))

/-- The positions in encoding order. -/
def OperandPos.inOrder : List OperandPos := [.a, .b, .c]

/-- The build-time checks of R234: the operand count is the mnemonic's, and every operand fits its position. -/
def SymInstr.wellFormed (i : SymInstr) : Bool :=
  decide (i.operands.length = i.kind.arity) &&
    (OperandPos.inOrder.zip i.operands).all fun po => SymOperand.fits i.kind po.1 po.2

end Sys2Proof
end

