-- ==== Sys2Proof/Decode.lean ====
section
/-! DEFINITION. The operand codec and the instruction decoder (R80 to R106), and after them the encoder. The decoder
reads a stream of bytes, `f j` being the byte `j` places after the opcode byte: memory is total, so there is
always a next byte (R106), and it consumes exactly the bytes it reports. -/

namespace Sys2Proof

/-- The decoder's verdicts against an instruction (R106, R263). `consumed` is the number of bytes fetched when
the fault is detected, so that the cursor of the fault record is `pc0 + consumed` (R262). -/
inductive Reject where
  | unknownOpcode (op : Byte)
  | invalidMode (op : Byte) (operand : OperandPos) (modrm : Byte) (consumed : Nat)
  | immediateDestination (op : Byte) (operand : OperandPos) (modrm : Byte) (consumed : Nat)
  deriving DecidableEq, Repr

/-- How many bytes were fetched when the fault was detected (R135, R87, R137). -/
def Reject.fetched : Reject → Nat
  | .unknownOpcode _ => 1
  | .invalidMode _ _ _ n => n
  | .immediateDestination _ _ _ n => n

/-- A decoded instruction and its length in bytes (R106). -/
structure Decoded where
  instr : Instr
  length : Nat
  deriving DecidableEq, Repr

/-- `reg = ModRM[7:5]` (R82). -/
def modrmReg (m : Byte) : BitVec 3 := m.extractLsb' 5 3

/-- `mode = ModRM[4:0]` (R82). -/
def modrmMode (m : Byte) : BitVec 5 := m.extractLsb' 0 5

/-- "The wire byte is `(reg << 5) | mode`" (R82). -/
def modrmByte (reg : BitVec 3) (mode : BitVec 5) : Byte :=
  (reg.setWidth 8 <<< 5) ||| mode.setWidth 8

/-- The `n` trailing bytes at `off` as an unsigned number, most significant byte first, zero-extended (R84). -/
def readTrailing (f : Nat → Byte) (off n : Nat) : Word :=
  match n with
  | 1 => (f off).setWidth 32
  | 2 => (beHalf (f off) (f (off + 1))).setWidth 32
  | 4 => beWord (f off) (f (off + 1)) (f (off + 2)) (f (off + 3))
  | _ => 0

/-- `DecodeOperand` (R85): the descriptor at `off` and the offset after it, or the ModRM byte whose mode is invalid,
in which case no trailing byte is read. -/
def decodeDescriptor (f : Nat → Byte) (off : Nat) : Except Byte (Descriptor × Nat) :=
  let m := f off
  let mode := modrmMode m
  match modeClass mode with
  | .invalid => .error m
  | .regReg => .ok (⟨modrmReg m, mode, (mode.extractLsb' 0 3).setWidth 32⟩, off + 1)
  | _ => .ok (⟨modrmReg m, mode, readTrailing f (off + 1) (trailing mode)⟩, off + 1 + trailing mode)

/-- The operand a descriptor stands for, by the class of its mode (R86); none where the mode is invalid. -/
def Descriptor.operand (d : Descriptor) : Option Operand :=
  let r := Reg.ofIndex d.reg
  match modeClass d.mode with
  | .regDirect => some (.loc (.reg r))
  | .imm8 => some (.imm8 r (d.value.setWidth 8))
  | .imm16 => some (.imm16 r (d.value.setWidth 16))
  | .imm32 => some (.imm32 r d.value)
  | .regInd => some (.loc (.mem (.regInd r)))
  | .regDisp8 => some (.loc (.mem (.regDisp8 r (d.value.setWidth 8))))
  | .regDisp16 => some (.loc (.mem (.regDisp16 r (d.value.setWidth 16))))
  | .regDisp32 => some (.loc (.mem (.regDisp32 r d.value)))
  | .regReg => some (.loc (.mem (.regReg r (Reg.ofIndex (d.mode.extractLsb' 0 3)))))
  | .invalid => none

/-- One operand at `off`: `DecodeOperand`, then its meaning as an operand form. -/
def decodeOperand (f : Nat → Byte) (off : Nat) : Except Byte (Operand × Nat) :=
  match decodeDescriptor f off with
  | .error m => .error m
  | .ok (d, next) =>
    match d.operand with
    | some o => .ok (o, next)
    | none => .error (modrmByte d.reg d.mode)

/-- The operand in position `p` of the instruction with opcode byte `op`; the first invalid mode ends decoding
with InvalidMode, the cursor after the offending ModRM byte (R87, R136). -/
def decodeAt (op : Byte) (p : OperandPos) (f : Nat → Byte) (off : Nat) : Except Reject (Operand × Nat) :=
  match decodeOperand f off with
  | .ok r => .ok r
  | .error m => .error (.invalidMode op p m (off + 1))

/-- The descriptor of an operand (R88, R95's modes). -/
def Operand.descriptor : Operand → Descriptor
  | .imm8 r v => ⟨r.index, 0x04, v.setWidth 32⟩
  | .imm16 r v => ⟨r.index, 0x05, v.setWidth 32⟩
  | .imm32 r v => ⟨r.index, 0x06, v⟩
  | .loc (.reg r) => ⟨r.index, 0x00, 0⟩
  | .loc (.mem (.regInd r)) => ⟨r.index, 0x10, 0⟩
  | .loc (.mem (.regDisp8 r d)) => ⟨r.index, 0x14, d.setWidth 32⟩
  | .loc (.mem (.regDisp16 r d)) => ⟨r.index, 0x15, d.setWidth 32⟩
  | .loc (.mem (.regDisp32 r d)) => ⟨r.index, 0x16, d⟩
  | .loc (.mem (.regReg r i)) => ⟨r.index, 0x18 ||| i.index.setWidth 5, i.index.setWidth 32⟩

/-- The ModRM byte of an operand (R82). -/
def Operand.modrm (o : Operand) : Byte := modrmByte o.descriptor.reg o.descriptor.mode

/-- The destination check of R137 on the operand in position `p` of an instruction whose decoding ended at `len`. -/
def destination (op : Byte) (p : OperandPos) (len : Nat) (o : Operand) : Except Reject Loc :=
  match o with
  | .loc l => .ok l
  | _ => .error (.immediateDestination op p o.modrm len)

/-- The instruction decoder (R106): dispatch the opcode byte, decode every operand in order a, b, c, then check the
destinations, b before c (R133 to R137, R266). -/
def decode (cfg : Config) (f : Nat → Byte) : Except Reject Decoded :=
  let op := f 0
  match dispatch cfg op with
  | none => .error (.unknownOpcode op)
  | some k =>
    match k.form with
    | .srcDst mk => do
      let (a, n) ← decodeAt op .a f 1
      let (b, len) ← decodeAt op .b f n
      let b ← destination op .b len b
      return ⟨mk a b, len⟩
    | .srcSrc mk => do
      let (a, n) ← decodeAt op .a f 1
      let (b, len) ← decodeAt op .b f n
      return ⟨mk a b, len⟩
    | .srcDstDst mk => do
      let (a, n) ← decodeAt op .a f 1
      let (b, n) ← decodeAt op .b f n
      let (c, len) ← decodeAt op .c f n
      let b ← destination op .b len b
      let c ← destination op .c len c
      return ⟨mk a b c, len⟩

/-- `EncodeModRM` (R94): the ModRM byte and the low `8 * T(mode)` bits of the value, most significant first. -/
def encodeModRM (d : Descriptor) : List Byte :=
  modrmByte d.reg d.mode ::
    match trailing d.mode with
    | 1 => [byteOf d.value 0]
    | 2 => halfBytes (d.value.setWidth 16)
    | 4 => wordBytes d.value
    | _ => []

/-- The bytes of an operand (R93, R94). -/
def Operand.encode (o : Operand) : List Byte := encodeModRM o.descriptor

/-- The number of bytes an operand occupies: `1 + T(mode)` (R81). -/
def Operand.length (o : Operand) : Nat := 1 + trailing o.descriptor.mode

/-- The encoder: `[opcode:1][operand1][operand2]([operand3])` (R80, R241). -/
def encode (cfg : Config) (i : Instr) : List Byte :=
  opcode cfg i.kind :: i.operands.flatMap Operand.encode

/-- The encoded length of an instruction: `1 + Σ (1 + T(mode))` (R81). -/
def Instr.length (i : Instr) : Nat := 1 + (i.operands.map Operand.length).sum

/-- Byte `j` of a table word: bits `8j+7 : 8j`, and 0 above `nbits`. -/
def tableByte (nbits w j : Nat) : Byte :=
  if 8 * j < nbits then BitVec.ofNat 8 (w >>> (8 * j)) else 0

/-- The longest instruction, in bytes (R81). -/
def maxLength : Nat := 16

/-- The instruction the decoder reads from a word numbered as opcode_table.json numbers it: the first byte is bits
7 to 0 and every byte above `nbits` is 0. The extended opcode bytes are those of `Config.atReset`. -/
def decodeTableWord (nbits w : Nat) : Option Instr :=
  match decode Config.atReset (tableByte nbits w) with
  | .ok d => some d.instr
  | .error _ => none

end Sys2Proof
end

