-- ==== Sys2Proof/Machine/State.lean ====
section
/-! DEFINITION. The machine's state as plain data: registers, flag, memory, debug buffer, run status (R20 to R34,
R51, R262), beside them the run's parameters (R9) and the model's own selector of first-touch bytes (log 5). -/

namespace Sys2Proof.Machine

/-- The register file of R20: F0 to F6 and the program counter XX (R21). No register is hardwired (R22). -/
structure Regs where
  f0 : Word
  f1 : Word
  f2 : Word
  f3 : Word
  f4 : Word
  f5 : Word
  f6 : Word
  xx : Word
  deriving DecidableEq, Repr

/-- Memory as the list of its touched bytes (R51), in canonical form: addresses strictly rising, all below 2^32.
An address that is not listed is untouched and holds no value. The list is `snapshot()` itself (R67). -/
abbrev Memory := List Host.Cell

/-- The canonical form from address `lo` on. -/
def Memory.risesFrom (lo : Nat) : Memory → Bool
  | [] => true
  | (a, _) :: rest => decide (lo ≤ a) && decide (a < 2 ^ 32) && Memory.risesFrom (a + 1) rest

/-- The canonical form: strictly rising addresses of the 32-bit space (R50), each at most once. -/
def Memory.wf (m : Memory) : Bool := Memory.risesFrom 0 m

/-- The fault record of R262, one constructor a cause (R263, R264). `operand` is the position of the offending
operand, `modrm` its ModRM byte and `mode` that byte's bits 4:0. The causes have no numeric codes (R263). -/
inductive FaultRecord where
  | unknownOpcode (opcode : Byte) (pc0 cursor : Word)
  | invalidMode (opcode : Byte) (pc0 cursor : Word) (operand : OperandPos) (modrm : Byte) (mode : BitVec 5)
  | immediateDestination (opcode : Byte) (pc0 cursor : Word) (operand : OperandPos) (modrm : Byte) (mode : BitVec 5)
  | imageOverflow (base : Word) (length : Nat)
  deriving DecidableEq, Repr

/-- The run status (R7, R31). -/
inductive RunStatus where
  | running
  | halted
  | aborted (r : FaultRecord)
  deriving DecidableEq, Repr

/-- The whole machine. -/
structure State where
  /-- the eight registers (R20) -/
  regs : Regs
  /-- the comparison flag (R26) -/
  flag : Bool
  /-- the touched bytes (R29, R51) -/
  mem : Memory
  /-- the debug buffer, oldest word first (R30) -/
  debugBuffer : List Word
  /-- the run status (R31) -/
  status : RunStatus
  /-- the parameters of R9, fixed for the run (R6; log 1) -/
  cfg : Config
  /-- the MODEL's own field (log 5): which bytes the first touches of this run draw (R56); no step changes it -/
  drawSeed : Nat
  deriving DecidableEq, Repr

/-- Why a step has no next state. A fault of the hardware is no such reason: a step that raises one answers the
next state, whose status is `aborted` with the record (R130, R149; log 9). -/
inductive Fault where
  /-- Raised by `step` alone, on a state whose status is `halted`: "no later step exists" (R31, R273). Safe. -/
  | runHalted
  /-- Raised by `step` alone, on a state whose status is `aborted`: the status "is terminal" (R31, R268). Safe. -/
  | runAborted (r : FaultRecord)
  deriving DecidableEq, Repr

/-- Refusals of the model. -/
inductive Refusal where
  /-- Raised by an arm of `exec` whose instruction has no meaning yet; no arm of this model raises it. Safe. -/
  | notModelled (mnemonic : String)
  deriving DecidableEq, Repr

/-- The registers when a run starts: F0 to F6 at `INIT_REGS`, XX at `LOAD_BASE` (R33, R290). -/
def Regs.initial (cfg : Config) : Regs where
  f0 := cfg.initRegs.f0
  f1 := cfg.initRegs.f1
  f2 := cfg.initRegs.f2
  f3 := cfg.initRegs.f3
  f4 := cfg.initRegs.f4
  f5 := cfg.initRegs.f5
  f6 := cfg.initRegs.f6
  xx := cfg.loadBase

/-- A run before its image is loaded: memory untouched, registers at their initial values, flag false (D5, log 7),
debug buffer empty, status Running (R33, R290). -/
def State.created (cfg : Config) (seed : Nat) : State where
  regs := Regs.initial cfg
  flag := false
  mem := []
  debugBuffer := []
  status := .running
  cfg := cfg
  drawSeed := seed

/-- The machine right after reset: the start of a run (R290) of the empty image, which loads (R293), at the
parameters of `Config.atReset`. DESIGN CHOICE, unsafe: the open parameters' values (log 2, log 3, log 4) and
the seed (log 6). -/
def State.reset : State := State.created Config.atReset 0

end Sys2Proof.Machine
end

