-- ==== Sys2Proof/Machine/Ops.lean ====
section
/-! DEFINITION. The named operations over registers and memory (R21, R50 to R58), raising a fault (R149, R262), the
halt (R131), the debug trap and its return (R270, R271), and the start of a run (R290 to R293). -/

namespace Sys2Proof.Machine

/-! ## Registers -/

/-- `x[r]` (R20). -/
def Regs.get (g : Regs) : Reg → Word
  | .F0 => g.f0
  | .F1 => g.f1
  | .F2 => g.f2
  | .F3 => g.f3
  | .F4 => g.f4
  | .F5 => g.f5
  | .F6 => g.f6
  | .XX => g.xx

/-- `x[r] <- v` (R20). Every register is writable (R22). -/
def Regs.set (g : Regs) (r : Reg) (v : Word) : Regs :=
  match r with
  | .F0 => { g with f0 := v }
  | .F1 => { g with f1 := v }
  | .F2 => { g with f2 := v }
  | .F3 => { g with f3 := v }
  | .F4 => { g with f4 := v }
  | .F5 => { g with f5 := v }
  | .F6 => { g with f6 := v }
  | .XX => { g with xx := v }

/-- Write one register of a state. -/
def State.setReg (s : State) (r : Reg) (v : Word) : State :=
  { s with regs := s.regs.set r v }

/-- `flag <- b` (R26). -/
def State.setFlag (s : State) (b : Bool) : State := { s with flag := b }

/-! ## Memory -/

/-- The stored value of a touched byte; none where the byte is untouched (R51). -/
def Memory.lookup (m : Memory) (a : Nat) : Option Byte :=
  match m with
  | [] => none
  | (k, b) :: rest => if k = a then some b else Memory.lookup rest a

/-- Store a byte and mark it touched, in the canonical form (R57). -/
def Memory.insert (m : Memory) (a : Nat) (b : Byte) : Memory :=
  match m with
  | [] => [(a, b)]
  | (k, c) :: rest =>
    if a < k then (a, b) :: (k, c) :: rest
    else if a = k then (a, b) :: rest
    else (k, c) :: Memory.insert rest a b

/-- Whether a byte is touched (R51). -/
def State.touched (s : State) (a : Word) : Bool := (s.mem.lookup a.toNat).isSome

/-- `WriteByte(a, v)` (R57): store and mark touched, without a draw. -/
def State.writeByte (s : State) (a : Word) (b : Byte) : State :=
  { s with mem := s.mem.insert a.toNat b }

/-- `ReadByte(a)` (R55): the stored value of a touched byte; for an untouched one a drawn byte, which is stored and
marks the byte touched. -/
def State.readByte (s : State) (a : Word) : Byte × State :=
  match s.mem.lookup a.toNat with
  | some b => (b, s)
  | none =>
    let b := Config.draw s.drawSeed a
    (b, s.writeByte a b)

/-- The byte a read of `a` would return in this state, without the touch. -/
def State.peek (s : State) (a : Word) : Byte := (s.readByte a).1

/-- `MemRead(a, 2)`: big-endian, byte reads in increasing address order, modulo 2^32 (R52, R54). -/
def State.memRead16 (s : State) (a : Word) : BitVec 16 × State :=
  let r0 := s.readByte a
  let r1 := r0.2.readByte (a + 1)
  (beHalf r0.1 r1.1, r1.2)

/-- `MemRead(a, 4)`: big-endian, byte reads in increasing address order, modulo 2^32 (R52, R54). -/
def State.memRead32 (s : State) (a : Word) : Word × State :=
  let r0 := s.readByte a
  let r1 := r0.2.readByte (a + 1)
  let r2 := r1.2.readByte (a + 2)
  let r3 := r2.2.readByte (a + 3)
  (beWord r0.1 r1.1 r2.1 r3.1, r3.2)

/-- The bytes of `bs` written at `a`, `a + 1`, …, in that order, modulo 2^32 (R53, R54). -/
def State.writeBytes (s : State) (a : Word) : List Byte → State
  | [] => s
  | b :: bs => (s.writeByte a b).writeBytes (a + 1) bs

/-- `MemWrite(a, 2, v)` (R53). -/
def State.memWrite16 (s : State) (a : Word) (v : BitVec 16) : State := s.writeBytes a (halfBytes v)

/-- `MemWrite(a, 4, v)` (R53). -/
def State.memWrite32 (s : State) (a : Word) (v : Word) : State := s.writeBytes a (wordBytes v)

/-- `snapshot()` (R67): the touched bytes in increasing address order; it touches nothing. -/
def State.snapshot (s : State) : List Host.Cell := s.mem

/-! ## Events -/

/-- `raise` (R262, R149): the run stops with status `Aborted` and the record. XX already stands at the cursor and the
fetched bytes are already touched; nothing else changes. There is no handler and no return (R268). -/
def State.raise (s : State) (r : FaultRecord) : State := { s with status := .aborted r }

/-- The halt of R131: status `Halted`, nothing else changes. -/
def State.halt (s : State) : State := { s with status := .halted }

/-- `DebugTrap()` (R270): append mem32[F5 + 4] to the debug buffer, then set XX to mem32[F5], which is the trap's own
return (R271). F0 to F6 and the flag are unchanged. -/
def State.debugTrap (s : State) : State :=
  let value := s.memRead32 (s.regs.f5 + 4)
  let logged := { value.2 with debugBuffer := value.2.debugBuffer ++ [value.1] }
  let ret := logged.memRead32 (logged.regs.f5)
  ret.2.setReg .XX ret.1

/-- The record of a decoder's verdict on the instruction whose opcode byte is at `pc0` (R262, R263). -/
def rejectRecord (pc0 : Word) (e : Reject) : FaultRecord :=
  let cursor := pc0 + BitVec.ofNat 32 e.fetched
  match e with
  | .unknownOpcode op => .unknownOpcode op pc0 cursor
  | .invalidMode op p m _ => .invalidMode op pc0 cursor p m (modrmMode m)
  | .immediateDestination op p m _ => .immediateDestination op pc0 cursor p m (modrmMode m)

/-! ## The start of a run -/

/-- `Load(image)` (R292, R293): copy the image to `LOAD_BASE` on, or, if `LOAD_BASE + len > 2^32` on integers, abort
the run with ImageOverflow before anything is copied. -/
def State.load (s : State) (image : List Byte) : State :=
  if s.cfg.loadBase.toNat + image.length > 2 ^ 32 then
    s.raise (.imageOverflow s.cfg.loadBase image.length)
  else s.writeBytes s.cfg.loadBase image

/-- `StartRun(image, params)` (R290). After ImageOverflow only the status is observable (R264; log 10). -/
def startRun (cfg : Config) (seed : Nat) (image : List Byte) : State :=
  (State.created cfg seed).load image

end Sys2Proof.Machine
end

