-- ==== Sys2Proof/Machine/Operands.lean ====
section
/-! DEFINITION. Operand access: effective addresses (R141), the value of an operand (R140), writing through a
destination (R142), and the narrow writes of KRZ8C and KRZ16C (R184, R185). -/

namespace Sys2Proof.Machine

/-- `EA(op)` of a memory form, modulo 2^32, displacements zero-extended (R141, R90). -/
def effectiveAddress (m : MemForm) (g : Regs) : Word :=
  match m with
  | .regInd r => g.get r
  | .regDisp8 r d => g.get r + d.setWidth 32
  | .regDisp16 r d => g.get r + d.setWidth 32
  | .regDisp32 r d => g.get r + d
  | .regReg base index => g.get base + g.get index

/-- Where a register or memory operand is, once its effective address is computed: "computed once, before the
instruction writes anything" (R139). -/
inductive Place where
  | reg (r : Reg)
  | mem (a : Word)
  deriving DecidableEq, Repr

/-- The place of an operand in the register file at the end of decode (R138, R139). -/
def place (l : Loc) (g : Regs) : Place :=
  match l with
  | .reg r => .reg r
  | .mem m => .mem (effectiveAddress m g)

/-- The 32-bit value at a place; a memory word is read first-touch (R140). -/
def State.readPlace (s : State) (p : Place) : Word × State :=
  match p with
  | .reg r => (s.regs.get r, s)
  | .mem a => s.memRead32 a

/-- `Resolve(op)` (R140): immediates zero-extended (R89), every memory form read as 32 bits (R61). -/
def State.resolve (s : State) (o : Operand) : Word × State :=
  match o with
  | .imm8 _ v => (v.setWidth 32, s)
  | .imm16 _ v => (v.setWidth 32, s)
  | .imm32 _ v => (v, s)
  | .loc l => s.readPlace (place l s.regs)

/-- `Store(op, v)` at the operand's place (R142): a memory destination is not read, so nothing is drawn. -/
def State.store (s : State) (p : Place) (v : Word) : State :=
  match p with
  | .reg r => s.setReg r v
  | .mem a => s.memWrite32 a v

/-- The write of KRZ8C (R184): the top byte of a register, the rest kept; or the one byte at EA, unread. -/
def State.storeTop8 (s : State) (p : Place) (v : Byte) : State :=
  match p with
  | .reg r => s.setReg r (v ++ (s.regs.get r).extractLsb' 0 24)
  | .mem a => s.writeByte a v

/-- The write of KRZ16C (R185): the top half-word of a register, the rest kept; or the two bytes at EA, unread. -/
def State.storeTop16 (s : State) (p : Place) (v : BitVec 16) : State :=
  match p with
  | .reg r => s.setReg r (v ++ (s.regs.get r).extractLsb' 0 16)
  | .mem a => s.memWrite16 a v

end Sys2Proof.Machine
end

