-- ==== Sys2Proof/Machine/Flags.lean ====
section
/-! DEFINITION. Every computation of the one flag: the ten predicates of the comparisons (R200 to R210) and the flag
update that follows an instruction (R146). The predicate has operand a on its left (R200, D9). -/

namespace Sys2Proof.Machine

/-- `unsigned(va) > unsigned(vb)` (R201). -/
def unsignedGreater (va vb : Word) : Bool := decide (va.toNat > vb.toNat)

/-- `unsigned(va) <= unsigned(vb)` (R202). -/
def unsignedAtMost (va vb : Word) : Bool := decide (va.toNat ≤ vb.toNat)

/-- `unsigned(va) >= unsigned(vb)` (R203). -/
def unsignedAtLeast (va vb : Word) : Bool := decide (va.toNat ≥ vb.toNat)

/-- `unsigned(va) < unsigned(vb)` (R204). -/
def unsignedLess (va vb : Word) : Bool := decide (va.toNat < vb.toNat)

/-- `va = vb` on the 32-bit patterns (R205). -/
def patternsEqual (va vb : Word) : Bool := decide (va = vb)

/-- `va ≠ vb` on the 32-bit patterns (R206). -/
def patternsDiffer (va vb : Word) : Bool := decide (va ≠ vb)

/-- `signed(va) > signed(vb)` (R207). -/
def signedGreater (va vb : Word) : Bool := decide (va.toInt > vb.toInt)

/-- `signed(va) <= signed(vb)` (R208). -/
def signedAtMost (va vb : Word) : Bool := decide (va.toInt ≤ vb.toInt)

/-- `signed(va) >= signed(vb)` (R209). -/
def signedAtLeast (va vb : Word) : Bool := decide (va.toInt ≥ vb.toInt)

/-- `signed(va) < signed(vb)` (R210). -/
def signedLess (va vb : Word) : Bool := decide (va.toInt < vb.toInt)

/-- `FlagUpdate` of an instruction that is no comparison: `flag <- false` (R146, R27). -/
def State.clearFlag (s : State) : State := s.setFlag false

/-- A comparison (R200): read a, then b, write no register and no memory, and leave the result in the flag. -/
def State.compare (s : State) (p : Word → Word → Bool) (a b : Operand) : State :=
  let va := s.resolve a
  let vb := va.2.resolve b
  vb.2.setFlag (p va.1 vb.1)

end Sys2Proof.Machine
end

