-- ==== Sys2Proof/Machine/Alu.lean ====
section
/-! DEFINITION. The eight two-operand arithmetic, logic and shift instructions (R160 to R168). -/

namespace Sys2Proof.Machine

/-- The common shape of the family: read a, then b, write `f vb va` to b, clear the flag (R143, R146, R160). -/
def State.binary (s : State) (f : Word → Word → Word) (a : Operand) (b : Loc) : State :=
  let p := place b s.regs
  let va := s.resolve a
  let vb := va.2.readPlace p
  (vb.2.store p (f vb.1 va.1)).clearFlag

/-- The logical shift right of R164: the amount is the whole unsigned word, 32 and more give 0 (R168). -/
def shiftRightLogical (vb va : Word) : Word :=
  if va.toNat ≥ 32 then 0 else vb >>> va.toNat

/-- The shift left of R165: the amount is the whole unsigned word, 32 and more give 0 (R168). -/
def shiftLeft (vb va : Word) : Word :=
  if va.toNat ≥ 32 then 0 else vb <<< va.toNat

/-- The arithmetic shift right of R166: amounts of 32 and more fill with the sign bit (R168). -/
def shiftRightArithmetic (vb va : Word) : Word :=
  if va.toNat ≥ 32 then (if vb.msb then 0xFFFFFFFF else 0) else vb.sshiftRight va.toNat

/-- ATA (R160). -/
def execAta (a : Operand) (b : Loc) (s : State) : Host.Outcome State Fault Refusal :=
  .next (s.binary (fun vb va => vb + va) a b)

/-- NTA (R161). -/
def execNta (a : Operand) (b : Loc) (s : State) : Host.Outcome State Fault Refusal :=
  .next (s.binary (fun vb va => vb - va) a b)

/-- ADA (R162). -/
def execAda (a : Operand) (b : Loc) (s : State) : Host.Outcome State Fault Refusal :=
  .next (s.binary (fun vb va => vb &&& va) a b)

/-- EKC (R163). -/
def execEkc (a : Operand) (b : Loc) (s : State) : Host.Outcome State Fault Refusal :=
  .next (s.binary (fun vb va => vb ||| va) a b)

/-- DTO (R164). -/
def execDto (a : Operand) (b : Loc) (s : State) : Host.Outcome State Fault Refusal :=
  .next (s.binary shiftRightLogical a b)

/-- DRO (R165). -/
def execDro (a : Operand) (b : Loc) (s : State) : Host.Outcome State Fault Refusal :=
  .next (s.binary shiftLeft a b)

/-- DTOSNA (R166). -/
def execDtosna (a : Operand) (b : Loc) (s : State) : Host.Outcome State Fault Refusal :=
  .next (s.binary shiftRightArithmetic a b)

/-- DAL (R167). -/
def execDal (a : Operand) (b : Loc) (s : State) : Host.Outcome State Fault Refusal :=
  .next (s.binary (fun vb va => ~~~(vb ^^^ va)) a b)

end Sys2Proof.Machine
end

