-- ==== Sys2Proof/Machine/Compare.lean ====
section
/-! DEFINITION. The ten comparisons (R200 to R210). -/

namespace Sys2Proof.Machine

/-- LLONYS (R201). -/
def execLlonys (a b : Operand) (s : State) : Host.Outcome State Fault Refusal :=
  .next (s.compare unsignedGreater a b)

/-- XTLONYS (R202). -/
def execXtlonys (a b : Operand) (s : State) : Host.Outcome State Fault Refusal :=
  .next (s.compare unsignedAtMost a b)

/-- XOLONYS (R203). -/
def execXolonys (a b : Operand) (s : State) : Host.Outcome State Fault Refusal :=
  .next (s.compare unsignedAtLeast a b)

/-- XYLONYS (R204). -/
def execXylonys (a b : Operand) (s : State) : Host.Outcome State Fault Refusal :=
  .next (s.compare unsignedLess a b)

/-- CLO (R205). -/
def execClo (a b : Operand) (s : State) : Host.Outcome State Fault Refusal :=
  .next (s.compare patternsEqual a b)

/-- NIV (R206). -/
def execNiv (a b : Operand) (s : State) : Host.Outcome State Fault Refusal :=
  .next (s.compare patternsDiffer a b)

/-- LLO (R207). -/
def execLlo (a b : Operand) (s : State) : Host.Outcome State Fault Refusal :=
  .next (s.compare signedGreater a b)

/-- XTLO (R208). -/
def execXtlo (a b : Operand) (s : State) : Host.Outcome State Fault Refusal :=
  .next (s.compare signedAtMost a b)

/-- XOLO (R209). -/
def execXolo (a b : Operand) (s : State) : Host.Outcome State Fault Refusal :=
  .next (s.compare signedAtLeast a b)

/-- XYLO (R210). -/
def execXylo (a b : Operand) (s : State) : Host.Outcome State Fault Refusal :=
  .next (s.compare signedLess a b)

end Sys2Proof.Machine
end

