-- ==== Sys2Proof/Machine/Move.lean ====
section
/-! DEFINITION. The six move instructions (R180 to R185). Their destination is not read in a memory form. -/

namespace Sys2Proof.Machine

/-- The common shape of the copies: read a, write `f va` to b, clear the flag (R180, R182, R183). -/
def State.copy (s : State) (f : Word → Word) (a : Operand) (b : Loc) : State :=
  let p := place b s.regs
  let va := s.resolve a
  (va.2.store p (f va.1)).clearFlag

/-- KRZ (R180). -/
def execKrz (a : Operand) (b : Loc) (s : State) : Host.Outcome State Fault Refusal :=
  .next (s.copy (fun va => va) a b)

/-- MALKRZ (R181): the copy if the flag is true; otherwise nothing is read or written. The flag is false after
either way. -/
def execMalkrz (a : Operand) (b : Loc) (s : State) : Host.Outcome State Fault Refusal :=
  .next (if s.flag then s.copy (fun va => va) a b else s.clearFlag)

/-- KRZ8I (R182): `sext_32(va[31:24])`. -/
def execKrz8i (a : Operand) (b : Loc) (s : State) : Host.Outcome State Fault Refusal :=
  .next (s.copy (fun va => (va.extractLsb' 24 8).signExtend 32) a b)

/-- KRZ16I (R183): `sext_32(va[31:16])`. -/
def execKrz16i (a : Operand) (b : Loc) (s : State) : Host.Outcome State Fault Refusal :=
  .next (s.copy (fun va => (va.extractLsb' 16 16).signExtend 32) a b)

/-- KRZ8C (R184): `va[7:0]` into the top byte of b. -/
def execKrz8c (a : Operand) (b : Loc) (s : State) : Host.Outcome State Fault Refusal :=
  let p := place b s.regs
  let va := s.resolve a
  .next (va.2.storeTop8 p (va.1.extractLsb' 0 8)).clearFlag

/-- KRZ16C (R185): `va[15:0]` into the top half-word of b. -/
def execKrz16c (a : Operand) (b : Loc) (s : State) : Host.Outcome State Fault Refusal :=
  let p := place b s.regs
  let va := s.resolve a
  .next (va.2.storeTop16 p (va.1.extractLsb' 0 16)).clearFlag

end Sys2Proof.Machine
end

