-- ==== Sys2Proof/Machine/ThreeOperand.lean ====
section
/-! DEFINITION. The three-operand instructions (R220 to R223). Both places are fixed before the first write (R139)
and the two writes happen in the order the rule lists (R144). -/

namespace Sys2Proof.Machine

/-- The common shape of the multiplies: read a, then b; write `low vb va` to b, then `high vb va` to c (R221, R222);
clear the flag. -/
def State.multiply (s : State) (product : Word → Word → BitVec 64) (a : Operand) (b c : Loc) : State :=
  let pb := place b s.regs
  let pc := place c s.regs
  let va := s.resolve a
  let vb := va.2.readPlace pb
  let p := product vb.1 va.1
  ((vb.2.store pb (p.extractLsb' 0 32)).store pc (p.extractLsb' 32 32)).clearFlag

/-- `zext_64(vb) * zext_64(va)` (R221). -/
def unsignedProduct (vb va : Word) : BitVec 64 := vb.zeroExtend 64 * va.zeroExtend 64

/-- `sext_64(vb) * sext_64(va)` (R222). -/
def signedProduct (vb va : Word) : BitVec 64 := vb.signExtend 64 * va.signExtend 64

/-- INJ (R220): read a, then b; write vb to c, then va to b. -/
def execInj (a : Operand) (b c : Loc) (s : State) : Host.Outcome State Fault Refusal :=
  let pb := place b s.regs
  let pc := place c s.regs
  let va := s.resolve a
  let vb := va.2.readPlace pb
  .next ((vb.2.store pc vb.1).store pb va.1).clearFlag

/-- LAT (R221). -/
def execLat (a : Operand) (b c : Loc) (s : State) : Host.Outcome State Fault Refusal :=
  .next (s.multiply unsignedProduct a b c)

/-- LATSNA (R222). -/
def execLatsna (a : Operand) (b c : Loc) (s : State) : Host.Outcome State Fault Refusal :=
  .next (s.multiply signedProduct a b c)

end Sys2Proof.Machine
end

