-- ==== Sys2Proof/Machine/Dispatch.lean ====
section
/-! DEFINITION. `exec`: one arm a row of the opcode table (R99), each one call of the instruction's meaning. -/

namespace Sys2Proof.Machine

/-- `Execute` and `FlagUpdate` of an instruction (R130, R147), in the state at the end of decode (R138). -/
def exec (i : Instr) (s : State) : Host.Outcome State Fault Refusal :=
  match i with
  | .ata a b => Sys2Proof.Machine.execAta a b s
  | .nta a b => Sys2Proof.Machine.execNta a b s
  | .ada a b => Sys2Proof.Machine.execAda a b s
  | .ekc a b => Sys2Proof.Machine.execEkc a b s
  | .dto a b => Sys2Proof.Machine.execDto a b s
  | .dro a b => Sys2Proof.Machine.execDro a b s
  | .dtosna a b => Sys2Proof.Machine.execDtosna a b s
  | .dal a b => Sys2Proof.Machine.execDal a b s
  | .krz a b => Sys2Proof.Machine.execKrz a b s
  | .malkrz a b => Sys2Proof.Machine.execMalkrz a b s
  | .llonys a b => Sys2Proof.Machine.execLlonys a b s
  | .xtlonys a b => Sys2Proof.Machine.execXtlonys a b s
  | .xolonys a b => Sys2Proof.Machine.execXolonys a b s
  | .xylonys a b => Sys2Proof.Machine.execXylonys a b s
  | .clo a b => Sys2Proof.Machine.execClo a b s
  | .niv a b => Sys2Proof.Machine.execNiv a b s
  | .llo a b => Sys2Proof.Machine.execLlo a b s
  | .xtlo a b => Sys2Proof.Machine.execXtlo a b s
  | .xolo a b => Sys2Proof.Machine.execXolo a b s
  | .xylo a b => Sys2Proof.Machine.execXylo a b s
  | .inj a b c => Sys2Proof.Machine.execInj a b c s
  | .lat a b c => Sys2Proof.Machine.execLat a b c s
  | .latsna a b c => Sys2Proof.Machine.execLatsna a b c s
  | .krz8i a b => Sys2Proof.Machine.execKrz8i a b s
  | .krz16i a b => Sys2Proof.Machine.execKrz16i a b s
  | .krz8c a b => Sys2Proof.Machine.execKrz8c a b s
  | .krz16c a b => Sys2Proof.Machine.execKrz16c a b s

end Sys2Proof.Machine
end

