-- ==== Sys2Proof/Machine/Fetch.lean ====
section
/-! DEFINITION. Instruction fetch: a first-touch byte read at XX that advances XX (R133, R85, R24), and the storing of
an instruction where the next step fetches it. -/

namespace Sys2Proof.Machine

/-- `MemRead(XX, 1); XX <- XX + 1` (R133, R85): the byte is touched, XX advances modulo 2^32 (R25). -/
def State.fetchByte (s : State) : State :=
  (s.readByte s.regs.xx).2.setReg .XX (s.regs.xx + 1)

/-- The fetch of `n` bytes, one after the other. -/
def State.fetch (s : State) : Nat → State
  | 0 => s
  | n + 1 => s.fetchByte.fetch n

/-- The bytes that fetches from XX on return, byte `j` being at `XX + j` (R24, R54). Each is the stored byte of a
touched address or the byte its first touch draws, whichever bytes are fetched before it. -/
def State.stream (s : State) (j : Nat) : Byte := s.peek (s.regs.xx + BitVec.ofNat 32 j)

/-- The instruction `w` of `nbits` bits, first byte in bits 7 to 0, and zero bytes up to the longest
instruction, stored from XX on. -/
def State.storeFetchWord (s : State) (nbits w : Nat) : State :=
  s.writeBytes s.regs.xx ((List.range maxLength).map (tableByte nbits w))

end Sys2Proof.Machine
end

