-- ==== Sys2Proof/Machine/Engine.lean ====
section
/-! DEFINITION. What a step of a running machine does, in the order of R266. -/

namespace Sys2Proof.Machine

/-- The fetched instruction's step (R133 to R138): its bytes are fetched, so XX stands at the cursor, and it executes,
or the decoder's verdict is raised (R149). -/
def State.runInstruction (s : State) : Host.Outcome State Fault Refusal :=
  match decode s.cfg s.stream with
  | .error e => .next ((s.fetch e.fetched).raise (rejectRecord s.regs.xx e))
  | .ok d => exec d.instr (s.fetch d.length)

/-- `Step()` of R130 while the status is `Running`: the return sentinel halts (R131), otherwise the debug sentinel runs
the debug trap (R132), otherwise an instruction runs. -/
def State.runStep (s : State) : Host.Outcome State Fault Refusal :=
  if s.regs.xx = s.cfg.retSentinel then .next s.halt
  else if s.regs.xx = s.cfg.dbgSentinel then .next s.debugTrap
  else s.runInstruction

end Sys2Proof.Machine
end

