-- ==== Sys2Proof/Machine/Step.lean ====
section
/-! DEFINITION. One step of the machine, and the storing of an instruction where the next step fetches it. -/

namespace Sys2Proof.Machine

/-- One step (R130). "`Halted` and `Aborted` are terminal: no later step exists" (R31). -/
def step (s : State) : Host.Outcome State Fault Refusal :=
  match s.status with
  | .running => s.runStep
  | .halted => .fault .runHalted
  | .aborted r => .fault (.runAborted r)

/-- The state with the instruction `w` stored where the next step fetches it (log 11, log 12). -/
def State.withFetchWord (s : State) (nbits w : Nat) : State := s.storeFetchWord nbits w

end Sys2Proof.Machine
end

