-- ==== Sys2Proof/Machine/Assembler.lean ====
section
/-! DEFINITION. The assembler's side of the codec (R95 to R98, R230 to R244): the choice of modes and widths, the IR, the
label table, the single pass over the source, and emission. -/

namespace Sys2Proof

/-- The assembler's faults (R265). `item` is the position in the source of the failing item, counted from 0;
`operand` is the offending operand, none where the operand count is wrong (log 14). -/
inductive AsmFault where
  | badOperandShape (item : Nat) (operand : Option OperandPos)
  | duplicateLabel (item : Nat) (name : LabelName)
  | suffixLabelWithoutInstruction (item : Nat) (name : LabelName)
  | unboundLabel (item : Nat) (name : LabelName)
  deriving DecidableEq, Repr

/-- An operand of an IR entry: its descriptor is chosen, or it waits for a label's address (R232). -/
inductive PendingOperand where
  | resolved (o : Operand)
  | label (n : LabelName)
  deriving DecidableEq, Repr

/-- One entry of the IR: a mnemonic and its "symbolic-operand encodings-in-waiting" (R232), with the position of its
source item. -/
structure IrEntry where
  kind : Kind
  operands : List PendingOperand
  item : Nat
  deriving DecidableEq, Repr

/-- The state of the single linear pass over the source (R232): the IR built so far, in order, its length in bytes,
and the label table (R236). -/
structure Assembly where
  ir : List IrEntry
  len : Nat
  labels : List (LabelName × Word)
  deriving DecidableEq, Repr

/-! ## Choosing modes and widths -/

/-- `W(v)` of R96: the smallest of 8, 16 and 32 bits that holds the value, read as unsigned. -/
def operandWidth (v : Word) : Nat :=
  if v.toNat ≤ 0xFF then 8 else if v.toNat ≤ 0xFFFF then 16 else 32

/-- A bare immediate: mode 0x04, 0x05 or 0x06 by `W(v)`, `reg` field 0 (R95, D26). -/
def immediateOperand (v : Word) : Operand :=
  match operandWidth v with
  | 8 => .imm8 (Reg.ofIndex 0) (v.setWidth 8)
  | 16 => .imm16 (Reg.ofIndex 0) (v.setWidth 16)
  | _ => .imm32 (Reg.ofIndex 0) v

/-- Register plus displacement: mode 0x14, 0x15 or 0x16 by `W(d)` (R95); displacement 0 takes the 8-bit form (R98). -/
def displacementForm (r : Reg) (d : Word) : MemForm :=
  match operandWidth d with
  | 8 => .regDisp8 r (d.setWidth 8)
  | 16 => .regDisp16 r (d.setWidth 16)
  | _ => .regDisp32 r d

/-- A resolved label: always the 32-bit form (R97), `reg` field 0 (R95, D26). -/
def labelOperand (address : Word) : Operand := .imm32 (Reg.ofIndex 0) address

/-- `EncodeOperand` up to the label's address (R95): the mode "by structural shape"; none for the shapes R231
refuses. -/
def SymOperand.pending (o : SymOperand) : Option PendingOperand :=
  match o.base, o.modifier with
  | .value v, .none => some (.resolved (immediateOperand v))
  | .register r, .none => some (.resolved (.loc (.reg r)))
  | .register r, .address => some (.resolved (.loc (.mem (.regInd r))))
  | .register r, .secondRegister r2 => some (.resolved (.loc (.mem (.regReg r r2))))
  | .register r, .displacement d => some (.resolved (.loc (.mem (displacementForm r d))))
  | .label n, .none => some (.label n)
  | _, _ => none

/-- The length of an operand of the IR: a label always counts 5 bytes (R97, R233). -/
def PendingOperand.length : PendingOperand → Nat
  | .resolved o => o.length
  | .label _ => 5

/-- The encoded length of an IR entry, known when it is built (R233). -/
def IrEntry.length (e : IrEntry) : Nat := 1 + (e.operands.map PendingOperand.length).sum

/-! ## Building -/

/-- The first operand that does not fit its position (R234). -/
def SymInstr.badOperand (i : SymInstr) : Option OperandPos :=
  ((OperandPos.inOrder.zip i.operands).find? fun po => !SymOperand.fits i.kind po.1 po.2).map Prod.fst

/-- One IR-building call (R234): validate the operand shapes up front, then give the entry its operands. -/
def buildEntry (item : Nat) (i : SymInstr) : Except AsmFault IrEntry :=
  if i.operands.length ≠ i.kind.arity then .error (.badOperandShape item none)
  else
    match i.badOperand with
    | some p => .error (.badOperandShape item (some p))
    | none => .ok ⟨i.kind, i.operands.filterMap SymOperand.pending, item⟩

/-- The address bound to a name, if it is bound (R236). -/
def labelAddress (labels : List (LabelName × Word)) (n : LabelName) : Option Word :=
  match labels with
  | [] => none
  | (m, a) :: rest => if m = n then some a else labelAddress rest n

/-- Bind a name to an offset from `LOAD_BASE` (R236); a name is bound only once (R239). -/
def Assembly.bind (s : Assembly) (cfg : Config) (item : Nat) (n : LabelName) (offset : Nat) : Except AsmFault Assembly :=
  match labelAddress s.labels n with
  | some _ => .error (.duplicateLabel item n)
  | none => .ok { s with labels := s.labels ++ [(n, cfg.loadBase + BitVec.ofNat 32 offset)] }

/-- One source item of the pass: append an IR entry (R232), bind a prefix label to the offset before the next
instruction (R237), or bind a suffix label to the start of the instruction before it (R238, C2). -/
def Assembly.add (s : Assembly) (cfg : Config) (item : Nat) : SourceItem → Except AsmFault Assembly
  | .instr i =>
    match buildEntry item i with
    | .error e => .error e
    | .ok e => .ok { s with ir := s.ir ++ [e], len := s.len + e.length }
  | .nll n => s.bind cfg item n s.len
  | .suffixL n =>
    match s.ir.getLast? with
    | none => .error (.suffixLabelWithoutInstruction item n)
    | some e => s.bind cfg item n (s.len - e.length)

/-- The rest of the pass from source position `item` on. -/
def Assembly.pass (cfg : Config) (s : Assembly) (item : Nat) : List SourceItem → Except AsmFault Assembly
  | [] => .ok s
  | x :: xs =>
    match s.add cfg item x with
    | .error e => .error e
    | .ok s' => s'.pass cfg (item + 1) xs

/-- The build of a whole source (R232, R240). -/
def build (cfg : Config) (source : List SourceItem) : Except AsmFault Assembly :=
  Assembly.pass cfg ⟨[], 0, []⟩ 0 source

/-! ## Emission -/

/-- An operand with its label replaced by the bound address; UnboundLabel if the name was never bound (R242). -/
def PendingOperand.resolve (labels : List (LabelName × Word)) (item : Nat) : PendingOperand → Except AsmFault Operand
  | .resolved o => .ok o
  | .label n =>
    match labelAddress labels n with
    | some a => .ok (labelOperand a)
    | none => .error (.unboundLabel item n)

/-- The instruction of a kind with these operands; none where the count or a destination does not fit its form. -/
def Kind.instr (k : Kind) (ops : List Operand) : Option Instr :=
  match k.form, ops with
  | .srcDst mk, [a, .loc b] => some (mk a b)
  | .srcSrc mk, [a, b] => some (mk a b)
  | .srcDstDst mk, [a, .loc b, .loc c] => some (mk a b c)
  | _, _ => none

/-- The operands of an IR entry with every label resolved, in order (R241, R242). -/
def resolveOperands (labels : List (LabelName × Word)) (item : Nat) : List PendingOperand → Except AsmFault (List Operand)
  | [] => .ok []
  | p :: ps =>
    match p.resolve labels item with
    | .error e => .error e
    | .ok o =>
      match resolveOperands labels item ps with
      | .error e => .error e
      | .ok os => .ok (o :: os)

/-- The instruction an IR entry stands for, its labels replaced by their addresses (R241). The shape was checked when
the entry was built, so emission adds no shape error (R234). -/
def IrEntry.instr (labels : List (LabelName × Word)) (e : IrEntry) : Except AsmFault Instr :=
  match resolveOperands labels e.item e.operands with
  | .error f => .error f
  | .ok ops =>
    match Kind.instr e.kind ops with
    | some i => .ok i
    | none => .error (.badOperandShape e.item none)

/-- The walk over the IR (R241): the opcode byte, then each operand's ModRM byte and trailing bytes. -/
def emitEntries (cfg : Config) (labels : List (LabelName × Word)) : List IrEntry → Except AsmFault (List Byte)
  | [] => .ok []
  | e :: es =>
    match e.instr labels with
    | .error f => .error f
    | .ok i =>
      match emitEntries cfg labels es with
      | .error f => .error f
      | .ok bytes => .ok (encode cfg i ++ bytes)

/-- Emission of a finished build (R8, R241). -/
def emit (cfg : Config) (s : Assembly) : Except AsmFault (List Byte) := emitEntries cfg s.labels s.ir

/-- The whole assembler: a build fault or an emission fault leaves no image (R243). -/
def assemble (cfg : Config) (source : List SourceItem) : Except AsmFault (List Byte) :=
  match build cfg source with
  | .error f => .error f
  | .ok s => emit cfg s

end Sys2Proof
end

