-- ==== Sys2Proof/Safety.lean ====
section
/-! DEFINITION. The terms the statements are written in: what a safe state is, which bytes and registers a place
covers, what an instruction leaves unchanged, and where a byte stream holds given bytes. -/

namespace Sys2Proof.Machine

/-- The invariant of the machine: memory is in its canonical form, so that equal memories are equal data (R51, R67),
and the parameters meet the constraints of R9. -/
structure State.Inv (s : State) : Prop where
  memory : s.mem.wf = true
  parameters : s.cfg.wellFormed = true

/-- A state from which the machine takes a step: neither a fault nor a refusal of `step` (R31). -/
def State.Steps (s : State) : Prop := ∃ t, step s = .next t

/-- A running state whose next step runs an instruction: XX is neither sentinel (R131 to R133). -/
structure State.Fetches (s : State) : Prop where
  running : s.status = .running
  notReturn : s.regs.xx ≠ s.cfg.retSentinel
  notDebug : s.regs.xx ≠ s.cfg.dbgSentinel

/-- `x` is one of the `n` bytes at `a`, `a + 1`, …, modulo 2^32 (R54). -/
def InSpan (a : Word) (n : Nat) (x : Word) : Prop := (x - a).toNat < n

/-- `x` is one of the `n` bytes at a memory place; a register covers no byte. -/
def Place.Covers (p : Place) (n : Nat) (x : Word) : Prop :=
  match p with
  | .reg _ => False
  | .mem a => InSpan a n x

/-- The value of an operand in a state (R140). -/
def State.value (s : State) (o : Operand) : Word := (s.resolve o).1

/-- The 32-bit value at a place in a state (R140). -/
def State.valueAt (s : State) (p : Place) : Word := (s.readPlace p).1

/-- `x` is one of the bytes that reading the operand reads (R61): the four bytes at its effective address for a memory
form, none otherwise. -/
def ReadsByte (o : Operand) (g : Regs) (x : Word) : Prop :=
  match o with
  | .loc l => (place l g).Covers 4 x
  | _ => False

/-- What `t` keeps of `s`: every register but those of `regs`, every byte but those of `bytes` (as a read of one byte
shows it), the debug buffer, the run status, the parameters and the draws. The flag is not part of it. -/
structure State.KeepsBut (s t : State) (regs : Reg → Prop) (bytes : Word → Prop) : Prop where
  registers : ∀ r, ¬ regs r → t.regs.get r = s.regs.get r
  memory : ∀ x, ¬ bytes x → t.peek x = s.peek x
  debugBuffer : t.debugBuffer = s.debugBuffer
  status : t.status = s.status
  cfg : t.cfg = s.cfg
  drawSeed : t.drawSeed = s.drawSeed

/-- `t` holds the 32-bit value `v` at `p`, except in the register or the bytes that `q` covers as well. -/
def State.HoldsBut (t : State) (p : Place) (v : Word) (q : Place) : Prop :=
  match p with
  | .reg r => q ≠ .reg r → t.regs.get r = v
  | .mem a => ∀ k, k < 4 → ¬ q.Covers 4 (a + BitVec.ofNat 32 k) → t.peek (a + BitVec.ofNat 32 k) = byteOf v (3 - k)

/-- The destination operands of an instruction (R101). -/
def destinations : Instr → List Loc
  | .ata _ b => [b]
  | .nta _ b => [b]
  | .ada _ b => [b]
  | .ekc _ b => [b]
  | .dto _ b => [b]
  | .dro _ b => [b]
  | .dtosna _ b => [b]
  | .dal _ b => [b]
  | .krz _ b => [b]
  | .malkrz _ b => [b]
  | .llonys _ _ => []
  | .xtlonys _ _ => []
  | .xolonys _ _ => []
  | .xylonys _ _ => []
  | .clo _ _ => []
  | .niv _ _ => []
  | .llo _ _ => []
  | .xtlo _ _ => []
  | .xolo _ _ => []
  | .xylo _ _ => []
  | .inj _ b c => [b, c]
  | .lat _ b c => [b, c]
  | .latsna _ b c => [b, c]
  | .krz8i _ b => [b]
  | .krz16i _ b => [b]
  | .krz8c _ b => [b]
  | .krz16c _ b => [b]

/-- Which bytes the execution of an instruction touches, apart from its fetch (R142, R143): the memory operands it reads
and the bytes it writes. A MALKRZ whose flag is false touches none (R181); the narrow stores touch the one or
two bytes they write (R184, R185). -/
def TouchedBy (i : Instr) (s : State) (x : Word) : Prop :=
  let src (a : Operand) : Prop := ReadsByte a s.regs x
  let dst (b : Loc) : Prop := (place b s.regs).Covers 4 x
  match i with
  | .ata a b => src a ∨ dst b
  | .nta a b => src a ∨ dst b
  | .ada a b => src a ∨ dst b
  | .ekc a b => src a ∨ dst b
  | .dto a b => src a ∨ dst b
  | .dro a b => src a ∨ dst b
  | .dtosna a b => src a ∨ dst b
  | .dal a b => src a ∨ dst b
  | .krz a b => src a ∨ dst b
  | .malkrz a b => s.flag = true ∧ (src a ∨ dst b)
  | .llonys a b => src a ∨ src b
  | .xtlonys a b => src a ∨ src b
  | .xolonys a b => src a ∨ src b
  | .xylonys a b => src a ∨ src b
  | .clo a b => src a ∨ src b
  | .niv a b => src a ∨ src b
  | .llo a b => src a ∨ src b
  | .xtlo a b => src a ∨ src b
  | .xolo a b => src a ∨ src b
  | .xylo a b => src a ∨ src b
  | .inj a b c => src a ∨ dst b ∨ dst c
  | .lat a b c => src a ∨ dst b ∨ dst c
  | .latsna a b c => src a ∨ dst b ∨ dst c
  | .krz8i a b => src a ∨ dst b
  | .krz16i a b => src a ∨ dst b
  | .krz8c a b => src a ∨ (place b s.regs).Covers 1 x
  | .krz16c a b => src a ∨ (place b s.regs).Covers 2 x

/-- Whether an operand has an immediate mode (R102). -/
def isImmediate : Operand → Bool
  | .imm8 _ _ => true
  | .imm16 _ _ => true
  | .imm32 _ _ => true
  | .loc _ => false

/-- The rule of a two-operand instruction with a destination that is read and written: its bytes, and its next state,
in which b's place holds a value that `result` relates to the old values of a and b, with the flag false. -/
def BinaryRule (op : Byte) (mk : Operand → Loc → Instr) (result : (va vb r : Word) → Prop) : Prop :=
  ∀ (a : Operand) (b : Loc) (s : State),
    (∀ cfg, encode cfg (mk a b) = op :: (a.encode ++ (Operand.loc b).encode)) ∧
    ∃ t, exec (mk a b) s = .next t ∧ t.flag = false ∧
      result (s.value a) (s.valueAt (place b s.regs)) (t.valueAt (place b s.regs))

/-- The rule of a comparison: its bytes, and its next state, in which the flag is the relation of the two operands'
values and no register and no byte has changed. -/
def ComparisonRule (op : Byte) (mk : Operand → Operand → Instr) (relation : (va vb : Word) → Prop) : Prop :=
  ∀ (a b : Operand) (s : State),
    (∀ cfg, encode cfg (mk a b) = op :: (a.encode ++ b.encode)) ∧
    ∃ t, exec (mk a b) s = .next t ∧ (t.flag = true ↔ relation (s.value a) (s.value b)) ∧
      s.KeepsBut t (fun _ => False) (fun _ => False)

/-- The stream `f` holds the bytes `bs` from offset `off` on. -/
def StreamHas (f : Nat → Byte) (off : Nat) : List Byte → Prop
  | [] => True
  | b :: bs => f off = b ∧ StreamHas f (off + 1) bs

end Sys2Proof.Machine
end

