-- ==== Sys2Proof/Certificates/Slice0/Obligations.lean ====
section
/-! DEFINITION. The statements for the provers, in the order of OBLIGATIONS.json. A statement about `exec` speaks of the
state at the end of decode, in which XX is already the address of the next instruction (R138). -/

open Sys2Proof Sys2Proof.Machine

/-! ## Arithmetic, logic and shifts (41_alu.md) -/

/-- R160, R161. -/
def Obligations.AtaAddsAndNtaSubtractsModulo2Pow32 : Prop :=
  BinaryRule 0x00 Instr.ata (fun va vb r => r.toNat = (vb.toNat + va.toNat) % 2 ^ 32) ∧
  BinaryRule 0x01 Instr.nta (fun va vb r => (r.toNat : Int) = ((vb.toNat : Int) - va.toNat) % 2 ^ 32)

/-- R162, R163, R167: bit by bit. -/
def Obligations.AdaEkcDalActBitByBit : Prop :=
  BinaryRule 0x02 Instr.ada (fun va vb r => ∀ i < 32, r.getLsbD i = (vb.getLsbD i && va.getLsbD i)) ∧
  BinaryRule 0x03 Instr.ekc (fun va vb r => ∀ i < 32, r.getLsbD i = (vb.getLsbD i || va.getLsbD i)) ∧
  BinaryRule 0x07 Instr.dal (fun va vb r => ∀ i < 32, r.getLsbD i = (vb.getLsbD i == va.getLsbD i))

/-- R164, R165: 32 and more give 0, which is what the quotient by, and the product modulo 2^32 with, so large a power
of two are. That the amount is the whole unsigned value of a, unmasked, is the spec's decision D31 (R168; log 8). -/
def Obligations.DtoAndDroShiftByTheWholeAmount : Prop :=
  BinaryRule 0x04 Instr.dto (fun va vb r => r.toNat = vb.toNat / 2 ^ va.toNat ∧ (32 ≤ va.toNat → r = 0)) ∧
  BinaryRule 0x05 Instr.dro (fun va vb r => r.toNat = vb.toNat * 2 ^ va.toNat % 2 ^ 32 ∧ (32 ≤ va.toNat → r = 0))

/-- R166: the signed value is divided by the power of two and rounded down, for every amount; from 32 on that is 0
or -1, "all-0s if the sign bit was 0, all-1s if the sign bit was 1". That the amount is the whole unsigned value of a,
unmasked, is the spec's decision D31 (R168; log 8). -/
def Obligations.DtosnaShiftsTheSignIn : Prop :=
  BinaryRule 0x06 Instr.dtosna (fun va vb r =>
    r.toInt = vb.toInt / 2 ^ va.toNat ∧ (32 ≤ va.toNat → r = if vb.toInt < 0 then 0xFFFFFFFF else 0))

/-! ## Moves (42_move.md) -/

/-- R180: the copy, and which bytes it leaves touched. -/
def Obligations.KrzCopiesItsSource : Prop :=
  ∀ (a : Operand) (b : Loc) (s : State),
    (∀ cfg, encode cfg (.krz a b) = 0x08 :: (a.encode ++ (Operand.loc b).encode)) ∧
    ∃ t, exec (.krz a b) s = .next t ∧ t.flag = false ∧ t.valueAt (place b s.regs) = s.value a ∧
      ∀ x, t.touched x = true ↔ s.touched x = true ∨ ReadsByte a s.regs x ∨ (place b s.regs).Covers 4 x

/-- R181. With the flag false nothing is read, written or touched: the spec's decision D19 (log 8). -/
def Obligations.MalkrzCopiesOnlyWhenTheFlagIsTrue : Prop :=
  ∀ (a : Operand) (b : Loc) (s : State),
    (∀ cfg, encode cfg (.malkrz a b) = 0x09 :: (a.encode ++ (Operand.loc b).encode)) ∧
    (s.flag = false → exec (.malkrz a b) s = .next s) ∧
    (s.flag = true → ∃ t, exec (.malkrz a b) s = .next t ∧ t.flag = false ∧ t.valueAt (place b s.regs) = s.value a)

/-- R182, R183. The opcode bytes are the parameters (D8); that a memory source is read as 32 bits (D18) and the
top part is literal for every source form (D33) are the spec's decisions (log 8). -/
def Obligations.Krz8iAndKrz16iExtendTheTopPart : Prop :=
  ∀ (a : Operand) (b : Loc) (s : State),
    (∀ cfg : Config, encode cfg (.krz8i a b) = cfg.opcKrz8i :: (a.encode ++ (Operand.loc b).encode)) ∧
    (∀ cfg : Config, encode cfg (.krz16i a b) = cfg.opcKrz16i :: (a.encode ++ (Operand.loc b).encode)) ∧
    (∃ t, exec (.krz8i a b) s = .next t ∧ t.flag = false ∧
      (t.valueAt (place b s.regs)).toInt = (BitVec.ofNat 8 ((s.value a).toNat / 2 ^ 24)).toInt) ∧
    (∃ t, exec (.krz16i a b) s = .next t ∧ t.flag = false ∧
      (t.valueAt (place b s.regs)).toInt = (BitVec.ofNat 16 ((s.value a).toNat / 2 ^ 16)).toInt)

/-- R184, R185. The opcode bytes are the parameters (D8); which bytes of a memory destination are written is the spec's
decision D32 (log 8). -/
def Obligations.Krz8cAndKrz16cReplaceTheTopPart : Prop :=
  ∀ (a : Operand) (s : State),
    (∀ (b : Loc) (cfg : Config), encode cfg (.krz8c a b) = cfg.opcKrz8c :: (a.encode ++ (Operand.loc b).encode)) ∧
    (∀ (b : Loc) (cfg : Config), encode cfg (.krz16c a b) = cfg.opcKrz16c :: (a.encode ++ (Operand.loc b).encode)) ∧
    (∀ r : Reg, ∃ t, exec (.krz8c a (.reg r)) s = .next t ∧ t.flag = false ∧
      (t.regs.get r).toNat = (s.value a).toNat % 2 ^ 8 * 2 ^ 24 + (s.regs.get r).toNat % 2 ^ 24) ∧
    (∀ r : Reg, ∃ t, exec (.krz16c a (.reg r)) s = .next t ∧ t.flag = false ∧
      (t.regs.get r).toNat = (s.value a).toNat % 2 ^ 16 * 2 ^ 16 + (s.regs.get r).toNat % 2 ^ 16) ∧
    (∀ m : MemForm, ∃ t, exec (.krz8c a (.mem m)) s = .next t ∧ t.flag = false ∧
      t.peek (effectiveAddress m s.regs) = byteOf (s.value a) 0) ∧
    (∀ m : MemForm, ∃ t, exec (.krz16c a (.mem m)) s = .next t ∧ t.flag = false ∧
      t.peek (effectiveAddress m s.regs) = byteOf (s.value a) 1 ∧
      t.peek (effectiveAddress m s.regs + 1) = byteOf (s.value a) 0)

/-! ## Comparisons (43_compare.md) -/

/-- R201 to R204. That a stands on the left is the spec's decision D9 (log 8). -/
def Obligations.UnsignedComparisonsSetTheFlag : Prop :=
  ComparisonRule 0x10 Instr.llonys (fun va vb => va.toNat > vb.toNat) ∧
  ComparisonRule 0x11 Instr.xtlonys (fun va vb => va.toNat ≤ vb.toNat) ∧
  ComparisonRule 0x12 Instr.xolonys (fun va vb => va.toNat ≥ vb.toNat) ∧
  ComparisonRule 0x13 Instr.xylonys (fun va vb => va.toNat < vb.toNat)

/-- R205, R206: "the operand order does not matter". -/
def Obligations.CloAndNivCompareThePatterns : Prop :=
  ComparisonRule 0x16 Instr.clo (fun va vb => va = vb) ∧
  ComparisonRule 0x17 Instr.niv (fun va vb => va ≠ vb)

/-- R207 to R210. That a stands on the left is the spec's decision D9 (log 8). -/
def Obligations.SignedComparisonsSetTheFlag : Prop :=
  ComparisonRule 0x18 Instr.llo (fun va vb => va.toInt > vb.toInt) ∧
  ComparisonRule 0x19 Instr.xtlo (fun va vb => va.toInt ≤ vb.toInt) ∧
  ComparisonRule 0x1A Instr.xolo (fun va vb => va.toInt ≥ vb.toInt) ∧
  ComparisonRule 0x1B Instr.xylo (fun va vb => va.toInt < vb.toInt)

/-! ## Three operands (44_three_operand.md) -/

/-- R220: c takes b's old value and b takes a's, c written first. The order of the two writes is the spec's decision
D12 (log 8). -/
def Obligations.InjExchangesThroughThreeOperands : Prop :=
  ∀ (a : Operand) (b c : Loc) (s : State),
    (∀ cfg, encode cfg (.inj a b c) = 0x20 :: (a.encode ++ (Operand.loc b).encode ++ (Operand.loc c).encode)) ∧
    ∃ t, exec (.inj a b c) s = .next t ∧ t.flag = false ∧
      t.valueAt (place b s.regs) = s.value a ∧
      t.HoldsBut (place c s.regs) (s.valueAt (place b s.regs)) (place b s.regs)

/-- R221: the exact unsigned product, low word to b, then high word to c. The order of the two writes is the spec's
decision D12 (log 8). -/
def Obligations.LatWritesTheUnsignedProduct : Prop :=
  ∀ (a : Operand) (b c : Loc) (s : State),
    (∀ cfg, encode cfg (.lat a b c) = 0x28 :: (a.encode ++ (Operand.loc b).encode ++ (Operand.loc c).encode)) ∧
    ∃ t, exec (.lat a b c) s = .next t ∧ t.flag = false ∧
      t.valueAt (place c s.regs) =
        BitVec.ofNat 32 ((s.valueAt (place b s.regs)).toNat * (s.value a).toNat / 2 ^ 32) ∧
      t.HoldsBut (place b s.regs)
        (BitVec.ofNat 32 ((s.valueAt (place b s.regs)).toNat * (s.value a).toNat)) (place c s.regs)

/-- R222: the exact signed product, low word to b, then high word to c. The order of the two writes is the spec's
decision D12 (log 8). -/
def Obligations.LatsnaWritesTheSignedProduct : Prop :=
  ∀ (a : Operand) (b c : Loc) (s : State),
    (∀ cfg, encode cfg (.latsna a b c) = 0x29 :: (a.encode ++ (Operand.loc b).encode ++ (Operand.loc c).encode)) ∧
    ∃ t, exec (.latsna a b c) s = .next t ∧ t.flag = false ∧
      t.valueAt (place c s.regs) =
        BitVec.ofInt 32 ((s.valueAt (place b s.regs)).toInt * (s.value a).toInt / 2 ^ 32) ∧
      t.HoldsBut (place b s.regs)
        (BitVec.ofInt 32 ((s.valueAt (place b s.regs)).toInt * (s.value a).toInt)) (place c s.regs)

/-! ## Frames -/

/-- What the twelve two-operand instructions with a 32-bit destination leave unchanged: every register but a register
destination, every byte but the four at the destination's effective address. -/
def Obligations.WordDestinationFrame : Prop :=
  ∀ (a : Operand) (b : Loc) (s t : State) (i : Instr),
    i ∈ [.ata a b, .nta a b, .ada a b, .ekc a b, .dto a b, .dro a b, .dtosna a b, .dal a b,
      .krz a b, .malkrz a b, .krz8i a b, .krz16i a b] →
    exec i s = .next t →
    s.KeepsBut t (fun r => place b s.regs = .reg r) ((place b s.regs).Covers 4)

/-- What KRZ8C and KRZ16C leave unchanged: every register but a register destination, every byte but the one or two at
the destination's effective address. -/
def Obligations.NarrowDestinationFrame : Prop :=
  ∀ (a : Operand) (b : Loc) (s t : State),
    (exec (.krz8c a b) s = .next t →
      s.KeepsBut t (fun r => place b s.regs = .reg r) ((place b s.regs).Covers 1)) ∧
    (exec (.krz16c a b) s = .next t →
      s.KeepsBut t (fun r => place b s.regs = .reg r) ((place b s.regs).Covers 2))

/-- What INJ, LAT and LATSNA leave unchanged: every register but register destinations, every byte but the four at
each memory destination's effective address, both computed before the first write (R139). -/
def Obligations.TwoDestinationFrame : Prop :=
  ∀ (a : Operand) (b c : Loc) (s t : State) (i : Instr),
    i ∈ [.inj a b c, .lat a b c, .latsna a b c] →
    exec i s = .next t →
    s.KeepsBut t (fun r => place b s.regs = .reg r ∨ place c s.regs = .reg r)
      (fun x => (place b s.regs).Covers 4 x ∨ (place c s.regs).Covers 4 x)

/-- Exactly the bytes an instruction reads and writes become touched (R142, R143; D18, D19, D32, log 8). -/
def Obligations.ExecutionTouchesItsOperandsAlone : Prop :=
  ∀ (i : Instr) (s t : State) (x : Word),
    exec i s = .next t → (t.touched x = true ↔ s.touched x = true ∨ TouchedBy i s x)

/-! ## Memory and operands (20_memory.md, 40_engine_dispatch.md) -/

/-- R57. -/
def Obligations.WriteByteStoresAndNeverDraws : Prop :=
  ∀ (s : State) (a : Word) (v : Byte),
    (s.writeByte a v).touched a = true ∧ (s.writeByte a v).readByte a = (v, s.writeByte a v) ∧
    ∀ x, x ≠ a → (s.writeByte a v).touched x = s.touched x ∧ (s.writeByte a v).peek x = s.peek x

/-- R55: first-touch, stable thereafter; a read of a touched byte changes nothing. -/
def Obligations.ReadByteIsFirstTouchAndStable : Prop :=
  ∀ (s : State) (a : Word),
    (s.touched a = true → (s.readByte a).2 = s) ∧
    (s.touched a = false → (s.readByte a).2 = s.writeByte a (s.readByte a).1) ∧
    (s.readByte a).2.readByte a = ((s.readByte a).1, (s.readByte a).2) ∧
    (∀ x, (s.readByte a).2.touched x = true ↔ s.touched x = true ∨ x = a) ∧
    (∀ x, (s.readByte a).2.peek x = s.peek x)

/-- R52: two and four byte reads, big-endian, in increasing address order; exactly the bytes read become touched. -/
def Obligations.MultiByteReadsAreBigEndian : Prop :=
  ∀ (s : State) (a : Word),
    (s.memRead16 a).1.toNat = (s.peek a).toNat * 2 ^ 8 + (s.peek (a + 1)).toNat ∧
    (s.memRead32 a).1.toNat = (s.peek a).toNat * 2 ^ 24 + (s.peek (a + 1)).toNat * 2 ^ 16 +
      (s.peek (a + 2)).toNat * 2 ^ 8 + (s.peek (a + 3)).toNat ∧
    (∀ x, (s.memRead16 a).2.touched x = true ↔ s.touched x = true ∨ x = a ∨ x = a + 1) ∧
    (∀ x, (s.memRead32 a).2.touched x = true ↔
      s.touched x = true ∨ x = a ∨ x = a + 1 ∨ x = a + 2 ∨ x = a + 3)

/-- R53, and R59's mixed-width views: a word written at any address reads back as a word, as its top half-word and as
its bytes; every other byte is unchanged. That `a + 1` to `a + 3` wrap modulo 2^32 is D16 (log 8). -/
def Obligations.MultiByteWritesAreBigEndian : Prop :=
  ∀ (s : State) (a v : Word) (h : BitVec 16),
    ((s.memWrite32 a v).memRead32 a).1 = v ∧
    ((s.memWrite32 a v).memRead16 a).1.toNat = v.toNat / 2 ^ 16 ∧
    (∀ k < 4, ((s.memWrite32 a v).peek (a + BitVec.ofNat 32 k)).toNat = v.toNat / 2 ^ (8 * (3 - k)) % 2 ^ 8) ∧
    (∀ x, ¬ InSpan a 4 x → (s.memWrite32 a v).peek x = s.peek x) ∧
    ((s.memWrite16 a h).memRead16 a).1 = h ∧
    ((s.memWrite16 a h).peek a).toNat = h.toNat / 2 ^ 8 ∧
    (∀ x, ¬ InSpan a 2 x → (s.memWrite16 a h).peek x = s.peek x)

/-- R56, R143: the order in which first touches happen changes neither the drawn bytes nor the memory they leave. It
compares two orders of draws from one state and seed, so it rests on the model's choice of log 5, that a draw is a
function of the seed and the address; that draws are independent of the order is the spec's decision D15 (log 8). -/
def Obligations.FirstTouchesCommute : Prop :=
  ∀ (s : State) (a b : Word), s.Inv →
    ((s.readByte a).2.readByte b).2 = ((s.readByte b).2.readByte a).2 ∧
    ((s.readByte a).2.readByte b).1 = (s.readByte b).1

/-- R141, R54, R90: every effective address, modulo 2^32. That displacements are zero-extended is the spec's decision
D17 (log 8). -/
def Obligations.EffectiveAddressesModulo2Pow32 : Prop :=
  ∀ (g : Regs) (r q : Reg) (d8 : BitVec 8) (d16 : BitVec 16) (d32 : BitVec 32),
    effectiveAddress (.regInd r) g = g.get r ∧
    (effectiveAddress (.regDisp8 r d8) g).toNat = ((g.get r).toNat + d8.toNat) % 2 ^ 32 ∧
    (effectiveAddress (.regDisp16 r d16) g).toNat = ((g.get r).toNat + d16.toNat) % 2 ^ 32 ∧
    (effectiveAddress (.regDisp32 r d32) g).toNat = ((g.get r).toNat + d32.toNat) % 2 ^ 32 ∧
    (effectiveAddress (.regReg r q) g).toNat = ((g.get r).toNat + (g.get q).toNat) % 2 ^ 32

/-- R140: a register operand reads its register, a memory operand the 32-bit word at its effective address, an
immediate its zero-extended value whatever its `reg` field (R89, R92). -/
def Obligations.OperandValuesByForm : Prop :=
  ∀ (s : State) (r : Reg) (m : MemForm) (v8 : BitVec 8) (v16 : BitVec 16) (v32 : BitVec 32),
    s.value (.loc (.reg r)) = s.regs.get r ∧
    s.value (.loc (.mem m)) = (s.memRead32 (effectiveAddress m s.regs)).1 ∧
    (s.value (.imm8 r v8)).toNat = v8.toNat ∧
    (s.value (.imm16 r v16)).toNat = v16.toNat ∧
    (s.value (.imm32 r v32)).toNat = v32.toNat

/-- R22: every register holds what is written to it, and writing it changes no other. -/
def Obligations.RegistersReadBackAsWritten : Prop :=
  ∀ (s : State) (r q : Reg) (v : Word),
    (s.setReg r v).regs.get q = if q = r then v else s.regs.get q

/-! ## The codec (30_encoding.md) -/

/-- Words written out from R80 to R86 and R99: three of 95_test_vectors.md part 4 and one of each family. -/
def Obligations.SampleWordsDecode : Prop :=
  decodeTableWord 24 0x200000 = some (.ata (.loc (.reg .F0)) (.reg .F1)) ∧
  decodeTableWord 32 0x00040417 = some (.niv (.imm8 .F0 4) (.loc (.reg .F0))) ∧
  decodeTableWord 88 0xDDCCBBAA16785634120608 =
    some (.krz (.imm32 .F0 0x12345678) (.mem (.regDisp32 .F0 0xAABBCCDD))) ∧
  decodeTableWord 32 0x40200028 = some (.lat (.loc (.reg .F0)) (.reg .F1) (.reg .F2)) ∧
  decodeTableWord 24 0xB90032 = some (.krz8c (.loc (.reg .F0)) (.mem (.regReg .F5 .F1))) ∧
  decodeTableWord 24 0x00000A = none ∧
  decodeTableWord 24 0x080000 = none ∧
  decodeTableWord 32 0x05040008 = none

/-- R93: for every well-formed descriptor, decoding its encoding gives it back and advances by `1 + T(mode)`. -/
def Obligations.DescriptorRoundTrip : Prop :=
  ∀ (d : Descriptor) (f : Nat → Byte) (off : Nat),
    d.wellFormed = true → StreamHas f off (encodeModRM d) →
    decodeDescriptor f off = .ok (d, off + 1 + trailing d.mode)

/-- Decode after encode (R93, R241): for every instruction, with every operand at every value, and every choice of
parameters R9 admits, a stream that begins with the instruction's bytes decodes to it, with their number. -/
def Obligations.DecodeAfterEncode : Prop :=
  ∀ (cfg : Config) (i : Instr) (f : Nat → Byte),
    cfg.wellFormed = true → StreamHas f 0 (encode cfg i) →
    decode cfg f = .ok ⟨i, (encode cfg i).length⟩

/-- Encode after decode (R104): whatever the stream, the decoder accepts nothing but an instruction's own encoding, and
reports its length. -/
def Obligations.DecodeAcceptsOnlyEncodings : Prop :=
  ∀ (cfg : Config) (f : Nat → Byte) (d : Decoded),
    decode cfg f = .ok d → StreamHas f 0 (encode cfg d.instr) ∧ d.length = (encode cfg d.instr).length

/-- R81: the encoded length is `1 + Σ (1 + T(mode))`, 3 to 11 bytes for two operands and 4 to 16 for three. -/
def Obligations.EncodedLengths : Prop :=
  ∀ (cfg : Config) (i : Instr),
    (encode cfg i).length = 1 + (i.operands.map fun o => 1 + trailing o.descriptor.mode).sum ∧
    (i.operands.length = 2 → 3 ≤ (encode cfg i).length ∧ (encode cfg i).length ≤ 11) ∧
    (i.operands.length = 3 → 4 ≤ (encode cfg i).length ∧ (encode cfg i).length ≤ 16) ∧
    (i.operands.length = 2 ∨ i.operands.length = 3)

/-- R99, R134: under the constraints of R9 the dispatch mux is the exact inverse of the opcode map; and R100 with the
default extended bytes, which are the spec's decision D8 (log 3). -/
def Obligations.DispatchInvertsTheOpcodeMap : Prop :=
  (∀ (cfg : Config) (op : Byte) (k : Kind), cfg.wellFormed = true → (dispatch cfg op = some k ↔ opcode cfg k = op)) ∧
  (∀ op : Byte, dispatch Config.atReset op = none ↔
    (0x0A ≤ op.toNat ∧ op.toNat ≤ 0x0F) ∨ op.toNat = 0x14 ∨ op.toNat = 0x15 ∨
    (0x1C ≤ op.toNat ∧ op.toNat ≤ 0x1F) ∨ (0x21 ≤ op.toNat ∧ op.toNat ≤ 0x27) ∨
    (0x2A ≤ op.toNat ∧ op.toNat ≤ 0x2F) ∨ 0x34 ≤ op.toNat)

/-- R85, R136, R266: after any operands that decode, the first invalid mode is reported as InvalidMode with its
position, its ModRM byte and the cursor after it, whatever follows and whatever the destinations are. Where it is
raised is the spec's decision D14, its priority D35 (log 8). -/
def Obligations.FirstInvalidModeIsReported : Prop :=
  ∀ (cfg : Config) (f : Nat → Byte) (k : Kind) (os : List Operand) (p : OperandPos),
    dispatch cfg (f 0) = some k → os.length < k.arity → OperandPos.inOrder[os.length]? = some p →
    StreamHas f 1 (os.flatMap Operand.encode) →
    modeClass (modrmMode (f (1 + (os.flatMap Operand.encode).length))) = .invalid →
    decode cfg f = .error (.invalidMode (f 0) p (f (1 + (os.flatMap Operand.encode).length))
      (1 + (os.flatMap Operand.encode).length + 1))

/-- R137, R266: when every operand decodes, the first destination position with an immediate is reported as
ImmediateDestination, b before c, with the whole instruction fetched. That it is a decode-time fault is the spec's
decision D13 (log 8). -/
def Obligations.ImmediateDestinationIsReported : Prop :=
  ∀ (cfg : Config) (f : Nat → Byte) (k : Kind) (os : List Operand) (p : OperandPos) (o : Operand),
    dispatch cfg (f 0) = some k → os.length = k.arity → StreamHas f 1 (os.flatMap Operand.encode) →
    (OperandPos.inOrder.zip os).find? (fun po => k.isDestination po.1 && isImmediate po.2) = some (p, o) →
    decode cfg f = .error (.immediateDestination (f 0) p o.modrm (1 + (os.flatMap Operand.encode).length))

/-! ## The step (40_engine_dispatch.md, 60_exceptions.md) -/

/-- A step runs the decoded instruction (R130, R136, R138): when the bytes at XX decode to an instruction, the step is
that instruction's execution in the state after fetching its bytes. -/
def Obligations.StepRunsTheDecodedInstruction : Prop :=
  ∀ (s : State) (d : Decoded), s.Fetches → decode s.cfg s.stream = .ok d →
    step s = exec d.instr (s.fetch d.length)

/-- R24, R133, R138: fetching `n` bytes leaves XX `n` further on modulo 2^32, every other register, the flag, the debug
buffer and every byte shown as they were, and touches exactly the `n` bytes from XX on. -/
def Obligations.FetchAdvancesTheCursor : Prop :=
  ∀ (s : State) (n : Nat),
    ((s.fetch n).regs.xx).toNat = (s.regs.xx.toNat + n) % 2 ^ 32 ∧
    s.KeepsBut (s.fetch n) (fun r => r = .XX) (fun _ => False) ∧ (s.fetch n).flag = s.flag ∧
    ∀ x, (s.fetch n).touched x = true ↔ s.touched x = true ∨ InSpan s.regs.xx n x

/-- R273. -/
def Obligations.StepHaltsAtTheReturnSentinel : Prop :=
  ∀ s : State, s.status = .running → s.regs.xx = s.cfg.retSentinel → step s = .next { s with status := .halted }

/-- R31: "no later step exists". -/
def Obligations.TerminalStatusHasNoStep : Prop :=
  ∀ s : State, s.status ≠ .running → ∀ t, step s ≠ .next t

/-- R147, R106, R271, R274: a running machine always has a next step: no instruction, no fetch and no debug trap stops
the model. -/
def Obligations.RunningMachineAlwaysSteps : Prop :=
  ∀ s : State, s.status = .running → s.Steps

/-- R270: the debug trap appends the word at `F5 + 4`, sets XX to the word at F5, and keeps the rest. That the flag is
unchanged is D20, that `F5 + 4` wraps D16 (log 8). -/
def Obligations.DebugTrapLogsAndReturns : Prop :=
  ∀ s : State, s.status = .running → s.regs.xx = s.cfg.dbgSentinel → s.regs.xx ≠ s.cfg.retSentinel →
    ∃ t, step s = .next t ∧
      t.debugBuffer = s.debugBuffer ++ [(s.memRead32 (s.regs.f5 + 4)).1] ∧
      t.regs = { s.regs with xx := (s.memRead32 s.regs.f5).1 } ∧
      t.flag = s.flag ∧ t.status = .running ∧ (∀ x, t.peek x = s.peek x) ∧
      ∀ x, t.touched x = true ↔ s.touched x = true ∨ InSpan (s.regs.f5 + 4) 4 x ∨ InSpan s.regs.f5 4 x

/-- R135: an unrecognized opcode aborts with the opcode byte, its address and the cursor after it; no operand byte is
fetched. -/
def Obligations.UnknownOpcodeAborts : Prop :=
  ∀ s : State, s.Fetches → dispatch s.cfg (s.peek s.regs.xx) = none →
    ∃ t, step s = .next t ∧
      t.status = .aborted (.unknownOpcode (s.peek s.regs.xx) s.regs.xx (s.regs.xx + 1)) ∧
      t.regs.xx = s.regs.xx + 1 ∧ ∀ x, t.touched x = true ↔ s.touched x = true ∨ x = s.regs.xx

/-- R149, R267, R262: a step whose decoding is rejected aborts with the record of the fault and has performed only its
fetches. The record's fields and XX at the fault are the spec's decision D24 (log 8). -/
def Obligations.FaultingStepOnlyFetches : Prop :=
  ∀ (s : State) (e : Reject), s.Fetches → decode s.cfg s.stream = .error e →
    ∃ (t : State) (n : Nat) (r : FaultRecord), step s = .next t ∧ t.status = .aborted r ∧
      (match e, r with
        | .unknownOpcode op, .unknownOpcode op' pc0 cursor =>
          op' = op ∧ n = 1 ∧ pc0 = s.regs.xx ∧ cursor = t.regs.xx
        | .invalidMode op p m len, .invalidMode op' pc0 cursor p' m' mode =>
          op' = op ∧ p' = p ∧ m' = m ∧ mode = m.extractLsb' 0 5 ∧ n = len ∧ pc0 = s.regs.xx ∧ cursor = t.regs.xx
        | .immediateDestination op p m len, .immediateDestination op' pc0 cursor p' m' mode =>
          op' = op ∧ p' = p ∧ m' = m ∧ mode = m.extractLsb' 0 5 ∧ n = len ∧ pc0 = s.regs.xx ∧ cursor = t.regs.xx
        | _, _ => False) ∧
      t.regs = { s.regs with xx := s.regs.xx + BitVec.ofNat 32 n } ∧
      t.flag = s.flag ∧ t.debugBuffer = s.debugBuffer ∧ t.cfg = s.cfg ∧ (∀ x, t.peek x = s.peek x) ∧
      ∀ x, t.touched x = true ↔ s.touched x = true ∨ InSpan s.regs.xx n x

/-- R26, R27, R146, R295: after an instruction's step that leaves the machine running, the flag is true only if the
instruction was one of the ten comparisons. -/
def Obligations.FlagIsLiveForOneInstruction : Prop :=
  ∀ s t : State, s.Fetches → step s = .next t → t.status = .running → t.flag = true →
    ∃ (d : Decoded) (a b : Operand), decode s.cfg s.stream = .ok d ∧
      d.instr ∈ [.llonys a b, .xtlonys a b, .xolonys a b, .xylonys a b, .clo a b, .niv a b,
        .llo a b, .xtlo a b, .xolo a b, .xylo a b]

/-- R145: `INJ target, XX, [F5]` is a call: it jumps to the target and leaves the address of the next instruction in the
word at F5. That XX reads as that address is the spec's decision D10 (log 8). -/
def Obligations.InjThroughXxCalls : Prop :=
  ∀ (s : State) (a : Operand) (n : Nat), s.Fetches →
    decode s.cfg s.stream = .ok ⟨.inj a (.reg .XX) (.mem (.regInd .F5)), n⟩ →
    ∃ t, step s = .next t ∧ t.regs.xx = (s.fetch n).value a ∧
      (t.memRead32 s.regs.f5).1 = s.regs.xx + BitVec.ofNat 32 n ∧ t.status = .running ∧ t.flag = false ∧
      ∀ r, r ≠ .XX → t.regs.get r = s.regs.get r

/-! ## Invariants -/

/-- The invariant holds at reset; the parameters' values there are the model's choice (log 2, log 3). -/
def Obligations.ResetMeetsTheInvariant : Prop := State.reset.Inv

/-- Every step keeps the invariant: memory stays in its canonical form and the parameters stay legal. -/
def Obligations.StepKeepsTheInvariant : Prop :=
  ∀ s t : State, s.Inv → step s = .next t → t.Inv

/-- R6, R28, R51, R30: no step changes the parameters, un-touches a byte, or takes a word out of the debug buffer; at most
one word is appended, and only by the debug trap. -/
def Obligations.StepKeepsWhatARunOnlyAddsTo : Prop :=
  ∀ s t : State, step s = .next t →
    t.cfg = s.cfg ∧ t.drawSeed = s.drawSeed ∧ (∀ x, s.touched x = true → t.touched x = true) ∧
    ∃ l, t.debugBuffer = s.debugBuffer ++ l ∧ l.length ≤ 1 ∧ (l ≠ [] → s.regs.xx = s.cfg.dbgSentinel)

/-- The whole-machine frame (R62, R139, R142): an instruction's step changes a register other than XX only if it is a
destination of the decoded instruction, a byte only if it lies in the word at a memory destination's effective
address; otherwise every register and byte is as before. That the address is computed from the registers at the end of
decode (D10), before the first write (D11), are the spec's decisions (log 8). -/
def Obligations.StepOnlyChangesDestinations : Prop :=
  ∀ s t : State, s.Fetches → step s = .next t →
    (∀ r, r ≠ .XX → t.regs.get r ≠ s.regs.get r →
      ∃ d, decode s.cfg s.stream = .ok d ∧ Loc.reg r ∈ destinations d.instr) ∧
    (∀ x, t.peek x ≠ s.peek x →
      ∃ d m, decode s.cfg s.stream = .ok d ∧ Loc.mem m ∈ destinations d.instr ∧
        InSpan (effectiveAddress m (s.fetch d.length).regs) 4 x)

/-! ## The start of a run (70_reset_and_hazards.md) -/

/-- R292: an image that fits is copied to `LOAD_BASE` on; "every image byte is touched with its image value and no
other byte is touched". -/
def Obligations.LoaderCopiesTheImage : Prop :=
  ∀ (cfg : Config) (seed : Nat) (image : List Byte), cfg.loadBase.toNat + image.length ≤ 2 ^ 32 →
    (∀ j (h : j < image.length),
      (startRun cfg seed image).readByte (cfg.loadBase + BitVec.ofNat 32 j) = (image[j], startRun cfg seed image)) ∧
    ∀ x, (startRun cfg seed image).touched x = true ↔
      cfg.loadBase.toNat ≤ x.toNat ∧ x.toNat < cfg.loadBase.toNat + image.length

/-- R264, R293: an image that does not fit, on integers, aborts the run before any step. The integer comparison is the
spec's decision D34 (log 8). -/
def Obligations.ImageOverflowAbortsBeforeAnyStep : Prop :=
  ∀ (cfg : Config) (seed : Nat) (image : List Byte), 2 ^ 32 < cfg.loadBase.toNat + image.length →
    (startRun cfg seed image).status = .aborted (.imageOverflow cfg.loadBase image.length) ∧
    ∀ t, step (startRun cfg seed image) ≠ .next t

/-- R33, R290, R291: an image that fits starts with XX at `LOAD_BASE`, F0 to F6 at `INIT_REGS`, an empty debug buffer and
the status Running, whatever the parameters. The flag is false by the spec's decision D5 (log 7). -/
def Obligations.RunStartsAtTheLoadBase : Prop :=
  ∀ (cfg : Config) (seed : Nat) (image : List Byte), cfg.loadBase.toNat + image.length ≤ 2 ^ 32 →
    (startRun cfg seed image).regs =
      { f0 := cfg.initRegs.f0, f1 := cfg.initRegs.f1, f2 := cfg.initRegs.f2, f3 := cfg.initRegs.f3,
        f4 := cfg.initRegs.f4, f5 := cfg.initRegs.f5, f6 := cfg.initRegs.f6, xx := cfg.loadBase } ∧
    (startRun cfg seed image).flag = false ∧ (startRun cfg seed image).debugBuffer = [] ∧
    (startRun cfg seed image).status = .running ∧ (startRun cfg seed image).cfg = cfg

/-- R291, R292: the first step of a run whose image begins with an instruction's bytes executes that instruction. -/
def Obligations.FirstStepRunsTheImagesFirstInstruction : Prop :=
  ∀ (cfg : Config) (seed : Nat) (i : Instr) (rest : List Byte), cfg.wellFormed = true →
    cfg.loadBase.toNat + (encode cfg i ++ rest).length ≤ 2 ^ 32 →
    cfg.loadBase ≠ cfg.retSentinel → cfg.loadBase ≠ cfg.dbgSentinel →
    step (startRun cfg seed (encode cfg i ++ rest)) =
      exec i ((startRun cfg seed (encode cfg i ++ rest)).fetch (encode cfg i).length)

/-! ## The assembler (48_assembler.md) -/

/-- R96. -/
def Obligations.OperandWidthIsTheSmallest : Prop :=
  ∀ v : Word, operandWidth v ∈ [8, 16, 32] ∧ v.toNat < 2 ^ operandWidth v ∧
    ∀ w ∈ [8, 16, 32], v.toNat < 2 ^ w → operandWidth v ≤ w

/-- R95, R97, R98: the bytes of each encodable shape, and that the other shapes do not encode (R231). The `reg` field 0 of
immediates and labels is the spec's decision D26, the form of displacement 0 D27, the refused shapes D28 (log 8). -/
def Obligations.SymbolicOperandsEncodeByShape : Prop :=
  (∀ v : Word, ∃ o, SymOperand.pending ⟨.value v, .none⟩ = some (.resolved o) ∧
    o.encode = if v.toNat ≤ 0xFF then [0x04, byteOf v 0]
      else if v.toNat ≤ 0xFFFF then [0x05, byteOf v 1, byteOf v 0]
      else [0x06, byteOf v 3, byteOf v 2, byteOf v 1, byteOf v 0]) ∧
  (∀ r : Reg, ∃ o, SymOperand.pending ⟨.register r, .none⟩ = some (.resolved o) ∧
    o.encode.map BitVec.toNat = [r.index.toNat * 32]) ∧
  (∀ r : Reg, ∃ o, SymOperand.pending ⟨.register r, .address⟩ = some (.resolved o) ∧
    o.encode.map BitVec.toNat = [r.index.toNat * 32 + 0x10]) ∧
  (∀ r q : Reg, ∃ o, SymOperand.pending ⟨.register r, .secondRegister q⟩ = some (.resolved o) ∧
    o.encode.map BitVec.toNat = [r.index.toNat * 32 + 0x18 + q.index.toNat]) ∧
  (∀ (r : Reg) (d : Word), ∃ o, SymOperand.pending ⟨.register r, .displacement d⟩ = some (.resolved o) ∧
    o.encode = if d.toNat ≤ 0xFF then [modrmByte r.index 0x14, byteOf d 0]
      else if d.toNat ≤ 0xFFFF then [modrmByte r.index 0x15, byteOf d 1, byteOf d 0]
      else [modrmByte r.index 0x16, byteOf d 3, byteOf d 2, byteOf d 1, byteOf d 0]) ∧
  (∀ (n : LabelName) (adr : Word), SymOperand.pending ⟨.label n, .none⟩ = some (.label n) ∧
    (labelOperand adr).encode = [0x06, byteOf adr 3, byteOf adr 2, byteOf adr 1, byteOf adr 0]) ∧
  (∀ o : SymOperand, SymOperand.pending o = none ↔
    (∀ r, o.base ≠ .register r) ∧ o.modifier ≠ .none)

/-- R237, R239: a prefix label binds its name to the address of the instruction that follows, `LOAD_BASE` plus the length
so far (D37, log 8); a name already bound is a build error. -/
def Obligations.PrefixLabelsBindOnce : Prop :=
  ∀ (cfg : Config) (s : Assembly) (item : Nat) (n : LabelName),
    (labelAddress s.labels n = none → ∃ s', s.add cfg item (.nll n) = .ok s' ∧
      labelAddress s'.labels n = some (cfg.loadBase + BitVec.ofNat 32 s.len) ∧
      (∀ m, m ≠ n → labelAddress s'.labels m = labelAddress s.labels m) ∧ s'.ir = s.ir ∧ s'.len = s.len) ∧
    (labelAddress s.labels n ≠ none → s.add cfg item (.nll n) = .error (.duplicateLabel item n))

/-- R238: a suffix label binds its name to the start of the preceding instruction (90_conflicts.md C2), based at
`LOAD_BASE` (D37, log 8); with none it is a build error, the spec's decision D38 (log 8). That with none this error is
reported even for a name already bound, before DuplicateLabel, is the model's choice (log 14). -/
def Obligations.SuffixLabelsBindThePrecedingInstruction : Prop :=
  ∀ (cfg : Config) (s : Assembly) (item : Nat) (n : LabelName),
    (s.ir = [] → s.add cfg item (.suffixL n) = .error (.suffixLabelWithoutInstruction item n)) ∧
    (∀ ir e, s.ir = ir ++ [e] → labelAddress s.labels n = none → ∃ s', s.add cfg item (.suffixL n) = .ok s' ∧
      labelAddress s'.labels n = some (cfg.loadBase + BitVec.ofNat 32 (s.len - e.length)) ∧
      (∀ m, m ≠ n → labelAddress s'.labels m = labelAddress s.labels m) ∧ s'.ir = s.ir ∧ s'.len = s.len) ∧
    (s.ir ≠ [] → labelAddress s.labels n ≠ none →
      s.add cfg item (.suffixL n) = .error (.duplicateLabel item n))

/-- R231, R234, R235: an IR-building call succeeds on exactly the well-formed symbolic instructions, and every failure is
BadOperandShape. The second clause says which these are by base, modifier, position (counted from 0) and kind: the
operand count of R99; a value or a label bare; after operand a, a register base in all but the comparisons; a label as
operand a of KRZ, MALKRZ and INJ alone. Which shapes are accepted rests on D28 and D29 (log 8). -/
def Obligations.BuildAcceptsExactlyTheWellFormed : Prop :=
  ∀ (item : Nat) (i : SymInstr),
    ((∃ e, buildEntry item i = .ok e) ↔ i.wellFormed = true) ∧
    ((∃ e, buildEntry item i = .ok e) ↔
      i.operands.length = (if i.kind ∈ [.inj, .lat, .latsna] then 3 else 2) ∧
      ∀ (j : Nat) (o : SymOperand), i.operands[j]? = some o →
        ((∀ r, o.base ≠ .register r) → o.modifier = .none) ∧
        (j ≠ 0 →
          i.kind ∉ [.llonys, .xtlonys, .xolonys, .xylonys, .clo, .niv, .llo, .xtlo, .xolo, .xylo] →
          ∃ r, o.base = .register r) ∧
        ((∃ n, o.base = .label n) → j = 0 ∧ i.kind ∈ [.krz, .malkrz, .inj])) ∧
    (∀ e, buildEntry item i = .ok e → e.kind = i.kind ∧ e.operands.map some = i.operands.map SymOperand.pending) ∧
    (∀ f, buildEntry item i = .error f → ∃ p, f = .badOperandShape item p)

/-- R242, R243: emission of a finished build fails exactly when some operand names a label that was never bound, and
then with UnboundLabel of such a label. -/
def Obligations.EmissionFailsOnlyForUnboundLabels : Prop :=
  ∀ (cfg : Config) (source : List SourceItem) (s : Assembly), build cfg source = .ok s →
    ((∃ bytes, emit cfg s = .ok bytes) ↔
      ∀ e ∈ s.ir, ∀ n, PendingOperand.label n ∈ e.operands → labelAddress s.labels n ≠ none) ∧
    (∀ f, emit cfg s = .error f → ∃ item n, f = .unboundLabel item n ∧ labelAddress s.labels n = none)

/-- R244: the emitted image and the decoder agree: the image is as long as the build says, and decoding at each entry's
offset gives the entry's mnemonic, its operands with labels replaced by their addresses, and its length. -/
def Obligations.EmittedImageDecodesToTheIr : Prop :=
  ∀ (cfg : Config) (source : List SourceItem) (s : Assembly) (bytes : List Byte), cfg.wellFormed = true →
    build cfg source = .ok s → emit cfg s = .ok bytes →
    bytes.length = s.len ∧
    ∀ before e after, s.ir = before ++ e :: after →
      ∃ i : Instr, i.kind = e.kind ∧ resolveOperands s.labels e.item e.operands = .ok i.operands ∧
        decode cfg (fun j => bytes.getD ((before.map IrEntry.length).sum + j) 0) = .ok ⟨i, e.length⟩
end

