-- ==== Sys2Proof/Laws/State.lean ====
section
/-! SUPPORT. One lemma per field per update of the state, and the register file's read-after-write laws. -/

namespace Sys2Proof.Machine

@[simp] theorem Regs.get_set_same (g : Regs) (r : Reg) (v : Word) : (g.set r v).get r = v := by
  cases r <;> rfl

theorem Regs.get_set_other (g : Regs) {r q : Reg} (v : Word) (h : q ≠ r) : (g.set r v).get q = g.get q := by
  cases r <;> cases q <;> first | rfl | exact absurd rfl h

/-- A register file is its eight values. -/
theorem Regs.eq_of_get {g h : Regs} (e : ∀ r, g.get r = h.get r) : g = h := by
  cases g; cases h
  have h0 := e .F0; have h1 := e .F1; have h2 := e .F2; have h3 := e .F3
  have h4 := e .F4; have h5 := e .F5; have h6 := e .F6; have h7 := e .XX
  simp only [Regs.get] at h0 h1 h2 h3 h4 h5 h6 h7
  subst h0 h1 h2 h3 h4 h5 h6 h7
  rfl

@[simp] theorem Regs.get_F5 (g : Regs) : g.get .F5 = g.f5 := rfl
@[simp] theorem Regs.get_XX (g : Regs) : g.get .XX = g.xx := rfl

@[simp] theorem setReg_regs (s : State) (r : Reg) (v : Word) : (s.setReg r v).regs = s.regs.set r v := rfl
@[simp] theorem setReg_flag (s : State) (r : Reg) (v : Word) : (s.setReg r v).flag = s.flag := rfl
@[simp] theorem setReg_mem (s : State) (r : Reg) (v : Word) : (s.setReg r v).mem = s.mem := rfl
@[simp] theorem setReg_debug (s : State) (r : Reg) (v : Word) : (s.setReg r v).debugBuffer = s.debugBuffer := rfl
@[simp] theorem setReg_status (s : State) (r : Reg) (v : Word) : (s.setReg r v).status = s.status := rfl
@[simp] theorem setReg_cfg (s : State) (r : Reg) (v : Word) : (s.setReg r v).cfg = s.cfg := rfl
@[simp] theorem setReg_drawSeed (s : State) (r : Reg) (v : Word) : (s.setReg r v).drawSeed = s.drawSeed := rfl

@[simp] theorem setFlag_regs (s : State) (b : Bool) : (s.setFlag b).regs = s.regs := rfl
@[simp] theorem setFlag_flag (s : State) (b : Bool) : (s.setFlag b).flag = b := rfl
@[simp] theorem setFlag_mem (s : State) (b : Bool) : (s.setFlag b).mem = s.mem := rfl
@[simp] theorem setFlag_debug (s : State) (b : Bool) : (s.setFlag b).debugBuffer = s.debugBuffer := rfl
@[simp] theorem setFlag_status (s : State) (b : Bool) : (s.setFlag b).status = s.status := rfl
@[simp] theorem setFlag_cfg (s : State) (b : Bool) : (s.setFlag b).cfg = s.cfg := rfl
@[simp] theorem setFlag_drawSeed (s : State) (b : Bool) : (s.setFlag b).drawSeed = s.drawSeed := rfl

@[simp] theorem writeByte_regs (s : State) (a : Word) (b : Byte) : (s.writeByte a b).regs = s.regs := rfl
@[simp] theorem writeByte_flag (s : State) (a : Word) (b : Byte) : (s.writeByte a b).flag = s.flag := rfl
@[simp] theorem writeByte_mem (s : State) (a : Word) (b : Byte) :
    (s.writeByte a b).mem = s.mem.insert a.toNat b := rfl
@[simp] theorem writeByte_debug (s : State) (a : Word) (b : Byte) : (s.writeByte a b).debugBuffer = s.debugBuffer := rfl
@[simp] theorem writeByte_status (s : State) (a : Word) (b : Byte) : (s.writeByte a b).status = s.status := rfl
@[simp] theorem writeByte_cfg (s : State) (a : Word) (b : Byte) : (s.writeByte a b).cfg = s.cfg := rfl
@[simp] theorem writeByte_drawSeed (s : State) (a : Word) (b : Byte) :
    (s.writeByte a b).drawSeed = s.drawSeed := rfl

@[simp] theorem raise_regs (s : State) (r : FaultRecord) : (s.raise r).regs = s.regs := rfl
@[simp] theorem raise_flag (s : State) (r : FaultRecord) : (s.raise r).flag = s.flag := rfl
@[simp] theorem raise_mem (s : State) (r : FaultRecord) : (s.raise r).mem = s.mem := rfl
@[simp] theorem raise_debug (s : State) (r : FaultRecord) : (s.raise r).debugBuffer = s.debugBuffer := rfl
@[simp] theorem raise_status (s : State) (r : FaultRecord) : (s.raise r).status = .aborted r := rfl
@[simp] theorem raise_cfg (s : State) (r : FaultRecord) : (s.raise r).cfg = s.cfg := rfl
@[simp] theorem raise_drawSeed (s : State) (r : FaultRecord) : (s.raise r).drawSeed = s.drawSeed := rfl

@[simp] theorem halt_regs (s : State) : s.halt.regs = s.regs := rfl
@[simp] theorem halt_flag (s : State) : s.halt.flag = s.flag := rfl
@[simp] theorem halt_mem (s : State) : s.halt.mem = s.mem := rfl
@[simp] theorem halt_debug (s : State) : s.halt.debugBuffer = s.debugBuffer := rfl
@[simp] theorem halt_status (s : State) : s.halt.status = .halted := rfl
@[simp] theorem halt_cfg (s : State) : s.halt.cfg = s.cfg := rfl
@[simp] theorem halt_drawSeed (s : State) : s.halt.drawSeed = s.drawSeed := rfl

end Sys2Proof.Machine
end

