-- ==== Sys2Proof/Laws/Memory.lean ====
section
/-! SUPPORT. Memory: read after write, the canonical form and that every operation keeps it, and what a byte read
and a byte write do to the bytes a state shows. -/

namespace Sys2Proof.Machine

/-! ## The list of touched bytes -/

@[simp] theorem Memory.lookup_insert_same (m : Memory) (a : Nat) (b : Byte) :
    Memory.lookup (Memory.insert m a b) a = some b := by
  induction m with
  | nil => simp [Memory.insert, Memory.lookup]
  | cons c rest ih =>
    obtain ⟨k, c⟩ := c
    by_cases h1 : a < k
    · simp [Memory.insert, Memory.lookup, h1]
    · by_cases h2 : a = k
      · simp [Memory.insert, Memory.lookup, h2]
      · simp [Memory.insert, Memory.lookup, h1, h2, Ne.symm h2, ih]

theorem Memory.lookup_insert_other (m : Memory) {a x : Nat} (b : Byte) (h : x ≠ a) :
    Memory.lookup (Memory.insert m a b) x = Memory.lookup m x := by
  induction m with
  | nil => simp [Memory.insert, Memory.lookup, Ne.symm h]
  | cons c rest ih =>
    obtain ⟨k, c⟩ := c
    by_cases h1 : a < k
    · simp [Memory.insert, Memory.lookup, h1, Ne.symm h]
    · by_cases h2 : a = k
      · subst h2; simp [Memory.insert, Memory.lookup, Ne.symm h]
      · simp [Memory.insert, Memory.lookup, h1, h2, ih]

/-- Raising the floor of the canonical form. -/
theorem Memory.risesFrom_mono {lo lo' : Nat} {m : Memory} (h : lo' ≤ lo) (w : Memory.risesFrom lo m = true) :
    Memory.risesFrom lo' m = true := by
  cases m with
  | nil => rfl
  | cons c rest =>
    obtain ⟨k, c⟩ := c
    simp only [Memory.risesFrom, Bool.and_eq_true, decide_eq_true_eq] at w ⊢
    exact ⟨⟨le_trans h w.1.1, w.1.2⟩, w.2⟩

/-- A write keeps the canonical form. -/
theorem Memory.insert_risesFrom {lo a : Nat} {m : Memory} (b : Byte) (hlo : lo ≤ a) (ha : a < 2 ^ 32)
    (w : Memory.risesFrom lo m = true) : Memory.risesFrom lo (Memory.insert m a b) = true := by
  induction m generalizing lo with
  | nil => simp [Memory.insert, Memory.risesFrom, hlo]; omega
  | cons c rest ih =>
    obtain ⟨k, c⟩ := c
    simp only [Memory.risesFrom, Bool.and_eq_true, decide_eq_true_eq] at w
    obtain ⟨⟨hk, hk2⟩, hr⟩ := w
    by_cases h1 : a < k
    · simp only [Memory.insert, h1, if_true, Memory.risesFrom, Bool.and_eq_true, decide_eq_true_eq]
      exact ⟨⟨hlo, ha⟩, ⟨by omega, hk2⟩, hr⟩
    · by_cases h2 : a = k
      · subst h2
        simp only [Memory.insert, lt_irrefl, if_false, if_true, Memory.risesFrom, Bool.and_eq_true,
          decide_eq_true_eq]
        exact ⟨⟨hk, hk2⟩, hr⟩
      · simp only [Memory.insert, h1, h2, if_false, Memory.risesFrom, Bool.and_eq_true, decide_eq_true_eq]
        exact ⟨⟨hk, hk2⟩, ih (by omega) hr⟩

theorem Memory.insert_wf {m : Memory} (a : Word) (b : Byte) (w : Memory.wf m = true) :
    Memory.wf (Memory.insert m a.toNat b) = true :=
  Memory.insert_risesFrom b (Nat.zero_le _) a.isLt w

/-- No address below the floor is listed. -/
theorem Memory.lookup_below {lo x : Nat} {m : Memory} (w : Memory.risesFrom lo m = true) (h : x < lo) :
    Memory.lookup m x = none := by
  induction m generalizing lo with
  | nil => rfl
  | cons c rest ih =>
    obtain ⟨k, c⟩ := c
    simp only [Memory.risesFrom, Bool.and_eq_true, decide_eq_true_eq] at w
    have hk : k ≠ x := by omega
    simp only [Memory.lookup, hk, if_false]
    exact ih w.2 (by omega)

/-- The canonical form: memories that store the same bytes are the same data. -/
theorem Memory.eq_of_lookup {lo : Nat} {m m' : Memory} (w : Memory.risesFrom lo m = true)
    (w' : Memory.risesFrom lo m' = true) (h : ∀ a, Memory.lookup m a = Memory.lookup m' a) : m = m' := by
  induction m generalizing lo m' with
  | nil =>
    cases m' with
    | nil => rfl
    | cons c r => obtain ⟨k, b⟩ := c; have := h k; simp [Memory.lookup] at this
  | cons c r ih =>
    obtain ⟨k, b⟩ := c
    cases m' with
    | nil => have := h k; simp [Memory.lookup] at this
    | cons c' r' =>
      obtain ⟨k', b'⟩ := c'
      simp only [Memory.risesFrom, Bool.and_eq_true, decide_eq_true_eq] at w w'
      have e1 := h k; have e2 := h k'
      have n1 : k' < k → False := fun hl => by
        have := Memory.lookup_below w.2 (x := k') (by omega)
        simp [Memory.lookup, this, show k ≠ k' by omega] at e2
      have n2 : k < k' → False := fun hl => by
        have := Memory.lookup_below w'.2 (x := k) (by omega)
        simp [Memory.lookup, this, show k' ≠ k by omega] at e1
      have : k = k' := by
        rcases lt_trichotomy k k' with hl | hl | hl
        · exact (n2 hl).elim
        · exact hl
        · exact (n1 hl).elim
      subst this
      simp [Memory.lookup] at e1
      subst e1
      congr 1
      refine ih w.2 w'.2 fun a => ?_
      by_cases hak : k = a
      · subst hak; rw [Memory.lookup_below w.2 (by omega), Memory.lookup_below w'.2 (by omega)]
      · have := h a; simpa [Memory.lookup, hak] using this

/-! ## Byte reads and writes of a state -/

theorem peek_eq (s : State) (a : Word) :
    s.peek a = (s.mem.lookup a.toNat).getD (Config.draw s.drawSeed a) := by
  simp only [State.peek, State.readByte]
  cases Memory.lookup s.mem a.toNat <;> rfl

/-- What a byte read returns. -/
@[simp] theorem readByte_value (s : State) (a : Word) : (s.readByte a).1 = s.peek a := rfl

/-- What a byte read does to the state: nothing to a touched byte, else the write of the byte it returns. -/
theorem readByte_cases (s : State) (a : Word) :
    (s.touched a = true ∧ (s.readByte a).2 = s) ∨
    (s.touched a = false ∧ (s.readByte a).2 = s.writeByte a (s.peek a)) := by
  rw [peek_eq]
  simp only [State.readByte, State.touched]
  cases h : Memory.lookup s.mem a.toNat <;> simp

/-- A byte read changes memory alone. -/
theorem readByte_state (s : State) (a : Word) : ∃ m, (s.readByte a).2 = { s with mem := m } := by
  rcases readByte_cases s a with ⟨_, h⟩ | ⟨_, h⟩ <;> rw [h]
  · exact ⟨s.mem, rfl⟩
  · exact ⟨_, rfl⟩

@[simp] theorem readByte_regs (s : State) (a : Word) : (s.readByte a).2.regs = s.regs := by
  obtain ⟨m, h⟩ := readByte_state s a; rw [h]
@[simp] theorem readByte_flag (s : State) (a : Word) : (s.readByte a).2.flag = s.flag := by
  obtain ⟨m, h⟩ := readByte_state s a; rw [h]
@[simp] theorem readByte_debug (s : State) (a : Word) : (s.readByte a).2.debugBuffer = s.debugBuffer := by
  obtain ⟨m, h⟩ := readByte_state s a; rw [h]
@[simp] theorem readByte_status (s : State) (a : Word) : (s.readByte a).2.status = s.status := by
  obtain ⟨m, h⟩ := readByte_state s a; rw [h]
@[simp] theorem readByte_cfg (s : State) (a : Word) : (s.readByte a).2.cfg = s.cfg := by
  obtain ⟨m, h⟩ := readByte_state s a; rw [h]
@[simp] theorem readByte_drawSeed (s : State) (a : Word) : (s.readByte a).2.drawSeed = s.drawSeed := by
  obtain ⟨m, h⟩ := readByte_state s a; rw [h]

@[simp] theorem peek_writeByte_same (s : State) (a : Word) (b : Byte) : (s.writeByte a b).peek a = b := by
  simp [peek_eq]

theorem peek_writeByte_other (s : State) {a x : Word} (b : Byte) (h : x ≠ a) :
    (s.writeByte a b).peek x = s.peek x := by
  have h' : x.toNat ≠ a.toNat := fun e => h (BitVec.eq_of_toNat_eq e)
  simp [peek_eq, Memory.lookup_insert_other _ _ h']

/-- A byte read changes no byte that the state shows. -/
@[simp] theorem peek_readByte (s : State) (a x : Word) : (s.readByte a).2.peek x = s.peek x := by
  rcases readByte_cases s a with ⟨_, h⟩ | ⟨_, h⟩ <;> rw [h]
  by_cases e : x = a
  · subst e; simp
  · exact peek_writeByte_other s _ e

@[simp] theorem peek_setReg (s : State) (r : Reg) (v x : Word) : (s.setReg r v).peek x = s.peek x := by
  simp [peek_eq]
@[simp] theorem peek_setFlag (s : State) (b : Bool) (x : Word) : (s.setFlag b).peek x = s.peek x := by
  simp [peek_eq]
@[simp] theorem peek_raise (s : State) (r : FaultRecord) (x : Word) : (s.raise r).peek x = s.peek x := by
  simp [peek_eq]
@[simp] theorem peek_halt (s : State) (x : Word) : s.halt.peek x = s.peek x := by simp [peek_eq]

@[simp] theorem touched_writeByte (s : State) (a x : Word) (b : Byte) :
    (s.writeByte a b).touched x = (s.touched x || decide (x = a)) := by
  simp only [State.touched, writeByte_mem]
  by_cases e : x = a
  · subst e; simp
  · have h' : x.toNat ≠ a.toNat := fun h => e (BitVec.eq_of_toNat_eq h)
    simp [Memory.lookup_insert_other _ _ h', e]

@[simp] theorem touched_readByte (s : State) (a x : Word) :
    (s.readByte a).2.touched x = (s.touched x || decide (x = a)) := by
  rcases readByte_cases s a with ⟨ht, h⟩ | ⟨_, h⟩ <;> rw [h]
  · by_cases e : x = a
    · subst e; simp [ht]
    · simp [e]
  · exact touched_writeByte s a x _

@[simp] theorem touched_setReg (s : State) (r : Reg) (v x : Word) : (s.setReg r v).touched x = s.touched x := rfl
@[simp] theorem touched_setFlag (s : State) (b : Bool) (x : Word) : (s.setFlag b).touched x = s.touched x := rfl
@[simp] theorem touched_raise (s : State) (r : FaultRecord) (x : Word) : (s.raise r).touched x = s.touched x := rfl
@[simp] theorem touched_halt (s : State) (x : Word) : s.halt.touched x = s.touched x := rfl

theorem writeByte_wf {s : State} (a : Word) (b : Byte) (w : s.mem.wf = true) :
    (s.writeByte a b).mem.wf = true := Memory.insert_wf a b w

theorem readByte_wf {s : State} (a : Word) (w : s.mem.wf = true) : (s.readByte a).2.mem.wf = true := by
  rcases readByte_cases s a with ⟨_, h⟩ | ⟨_, h⟩ <;> rw [h]
  · exact w
  · exact writeByte_wf a _ w

end Sys2Proof.Machine
end

