-- ==== Sys2Proof/Laws/Ops.lean ====
section
/-! SUPPORT. Multi-byte accesses, instruction fetch and the debug trap: for each, once, what it returns, which bytes it
touches or changes, and that it keeps the rest. -/

namespace Sys2Proof.Machine

/-! ## Spans of bytes -/

theorem inSpan_zero (a x : Word) : ¬ InSpan a 0 x := by simp [InSpan]

theorem inSpan_succ (a x : Word) (n : Nat) : InSpan a (n + 1) x ↔ x = a ∨ InSpan (a + 1) n x := by
  unfold InSpan
  constructor
  · intro h
    by_cases e : x = a
    · exact .inl e
    · right; bv_omega
  · rintro (rfl | h)
    · simp
    · bv_omega

theorem inSpan_four (a x : Word) : InSpan a 4 x ↔ x = a ∨ x = a + 1 ∨ x = a + 2 ∨ x = a + 3 := by
  unfold InSpan
  constructor
  · intro h; bv_omega
  · rintro (rfl | rfl | rfl | rfl) <;> bv_omega

/-! ## Words and their bytes -/

@[simp] theorem halfBytes_length (v : BitVec 16) : (halfBytes v).length = 2 := rfl
@[simp] theorem wordBytes_length (v : Word) : (wordBytes v).length = 4 := rfl

/-- A word is its bytes, most significant first. -/
@[simp] theorem beWord_byteOf (v : Word) : beWord (byteOf v 3) (byteOf v 2) (byteOf v 1) (byteOf v 0) = v := by
  apply BitVec.eq_of_getLsbD_eq
  intro i hi
  simp only [beWord, byteOf, BitVec.getLsbD_append, BitVec.getLsbD_extractLsb']
  by_cases h1 : i < 8
  · simp [h1]
  · by_cases h2 : i < 16
    · simp [h1, show i - 8 < 8 by omega, show 8 + (i - 8) = i by omega]
    · by_cases h3 : i < 24
      · simp [h1, show ¬ i - 8 < 8 by omega, show i - 8 - 8 < 8 by omega, show 16 + (i - 8 - 8) = i by omega]
      · simp [h1, show ¬ i - 8 < 8 by omega, show ¬ i - 8 - 8 < 8 by omega, show i - 8 - 8 - 8 < 8 by omega,
          show 24 + (i - 8 - 8 - 8) = i by omega]

/-- A half-word is its bytes, most significant first. -/
@[simp] theorem beHalf_extract (v : BitVec 16) : beHalf (v.extractLsb' 8 8) (v.extractLsb' 0 8) = v := by
  apply BitVec.eq_of_getLsbD_eq
  intro i hi
  simp only [beHalf, BitVec.getLsbD_append, BitVec.getLsbD_extractLsb']
  by_cases h1 : i < 8
  · simp [h1]
  · simp [h1, show i - 8 < 8 by omega, show 8 + (i - 8) = i by omega]

/-- The number a big-endian word stands for. -/
theorem beWord_toNat (b0 b1 b2 b3 : Byte) :
    (beWord b0 b1 b2 b3).toNat = b0.toNat * 2 ^ 24 + b1.toNat * 2 ^ 16 + b2.toNat * 2 ^ 8 + b3.toNat := by
  simp only [beWord, BitVec.toNat_append]
  rw [← Nat.shiftLeft_add_eq_or_of_lt (by omega), ← Nat.shiftLeft_add_eq_or_of_lt (by omega),
    ← Nat.shiftLeft_add_eq_or_of_lt (by omega)]
  simp only [Nat.shiftLeft_eq]
  ring

/-- The number a big-endian half-word stands for. -/
theorem beHalf_toNat (b0 b1 : Byte) : (beHalf b0 b1).toNat = b0.toNat * 2 ^ 8 + b1.toNat := by
  simp only [beHalf, BitVec.toNat_append]
  rw [← Nat.shiftLeft_add_eq_or_of_lt (by omega), Nat.shiftLeft_eq]

/-- The bytes of a big-endian half-word. -/
@[simp] theorem halfBytes_beHalf (b0 b1 : Byte) : halfBytes (beHalf b0 b1) = [b0, b1] := by
  have h := beHalf_toNat b0 b1
  simp only [halfBytes, List.cons.injEq, and_true]
  constructor <;> apply BitVec.eq_of_toNat_eq <;>
    simp only [BitVec.extractLsb'_toNat, Nat.shiftRight_eq_div_pow, h] <;> omega

/-- The bytes of a big-endian word. -/
@[simp] theorem wordBytes_beWord (b0 b1 b2 b3 : Byte) : wordBytes (beWord b0 b1 b2 b3) = [b0, b1, b2, b3] := by
  have h := beWord_toNat b0 b1 b2 b3
  simp only [wordBytes, byteOf, List.cons.injEq, and_true]
  refine ⟨?_, ?_, ?_, ?_⟩ <;> apply BitVec.eq_of_toNat_eq <;>
    simp only [BitVec.extractLsb'_toNat, Nat.shiftRight_eq_div_pow, h] <;> omega

/-! ## Writing bytes -/

/-- A sequence of byte writes changes memory alone. -/
theorem writeBytes_state (s : State) (a : Word) (bs : List Byte) :
    ∃ m, s.writeBytes a bs = { s with mem := m } := by
  induction bs generalizing s a with
  | nil => exact ⟨s.mem, rfl⟩
  | cons b bs ih =>
    obtain ⟨m, h⟩ := ih (s.writeByte a b) (a + 1)
    exact ⟨m, by rw [State.writeBytes, h]; rfl⟩

@[simp] theorem writeBytes_regs (s : State) (a : Word) (bs : List Byte) : (s.writeBytes a bs).regs = s.regs := by
  obtain ⟨m, h⟩ := writeBytes_state s a bs; rw [h]
@[simp] theorem writeBytes_flag (s : State) (a : Word) (bs : List Byte) : (s.writeBytes a bs).flag = s.flag := by
  obtain ⟨m, h⟩ := writeBytes_state s a bs; rw [h]
@[simp] theorem writeBytes_debug (s : State) (a : Word) (bs : List Byte) : (s.writeBytes a bs).debugBuffer = s.debugBuffer := by
  obtain ⟨m, h⟩ := writeBytes_state s a bs; rw [h]
@[simp] theorem writeBytes_status (s : State) (a : Word) (bs : List Byte) :
    (s.writeBytes a bs).status = s.status := by
  obtain ⟨m, h⟩ := writeBytes_state s a bs; rw [h]
@[simp] theorem writeBytes_cfg (s : State) (a : Word) (bs : List Byte) : (s.writeBytes a bs).cfg = s.cfg := by
  obtain ⟨m, h⟩ := writeBytes_state s a bs; rw [h]
@[simp] theorem writeBytes_drawSeed (s : State) (a : Word) (bs : List Byte) :
    (s.writeBytes a bs).drawSeed = s.drawSeed := by
  obtain ⟨m, h⟩ := writeBytes_state s a bs; rw [h]

theorem writeBytes_wf {s : State} (a : Word) (bs : List Byte) (w : s.mem.wf = true) :
    (s.writeBytes a bs).mem.wf = true := by
  induction bs generalizing s a with
  | nil => exact w
  | cons b bs ih => exact ih (a + 1) (writeByte_wf a b w)

/-- The written bytes become touched, and no other byte does: a write never draws. -/
theorem touched_writeBytes (s : State) (a x : Word) (bs : List Byte) :
    (s.writeBytes a bs).touched x = true ↔ s.touched x = true ∨ InSpan a bs.length x := by
  induction bs generalizing s a with
  | nil => simp [State.writeBytes, inSpan_zero]
  | cons b bs ih =>
    rw [State.writeBytes, ih, List.length_cons, inSpan_succ, touched_writeByte]
    simp only [Bool.or_eq_true, decide_eq_true_eq]
    tauto

/-- Bytes outside the written span read as before. -/
theorem peek_writeBytes_outside (s : State) (a x : Word) (bs : List Byte) (h : ¬ InSpan a bs.length x) :
    (s.writeBytes a bs).peek x = s.peek x := by
  induction bs generalizing s a with
  | nil => rfl
  | cons b bs ih =>
    rw [List.length_cons, inSpan_succ, not_or] at h
    rw [State.writeBytes, ih _ _ h.2, peek_writeByte_other _ _ h.1]

/-- The bytes of the written span read as written. -/
theorem peek_writeBytes_inside (s : State) (a : Word) (bs : List Byte) (j : Nat) (hj : j < bs.length)
    (hl : bs.length ≤ 2 ^ 32) : (s.writeBytes a bs).peek (a + BitVec.ofNat 32 j) = bs[j] := by
  induction bs generalizing s a j with
  | nil => simp at hj
  | cons b bs ih =>
    rw [List.length_cons] at hl hj
    cases j with
    | zero =>
      have h : ¬ InSpan (a + 1) bs.length a := by unfold InSpan; bv_omega
      have e : a + BitVec.ofNat 32 0 = a := by simp
      rw [e, State.writeBytes, peek_writeBytes_outside _ _ _ _ h]
      simp
    | succ j =>
      have e : a + BitVec.ofNat 32 (j + 1) = a + 1 + BitVec.ofNat 32 j := by bv_omega
      rw [State.writeBytes, e, ih _ _ j (by omega) (by omega)]
      simp

/-- A stored word, byte by byte: byte `k` from the top is at `a + k`. -/
theorem peek_memWrite32 (s : State) (a v : Word) (k : Nat) (hk : k < 4) :
    (s.memWrite32 a v).peek (a + BitVec.ofNat 32 k) = byteOf v (3 - k) := by
  rw [State.memWrite32, peek_writeBytes_inside _ _ _ k (by simpa using hk) (by simp)]
  have : k = 0 ∨ k = 1 ∨ k = 2 ∨ k = 3 := by omega
  rcases this with rfl | rfl | rfl | rfl <;> rfl

/-! ## Reading words -/

/-- What a 32-bit read returns: the four bytes the state shows, whichever of them its reads touch. -/
theorem memRead32_value (s : State) (a : Word) :
    (s.memRead32 a).1 = beWord (s.peek a) (s.peek (a + 1)) (s.peek (a + 2)) (s.peek (a + 3)) := by
  simp [State.memRead32]

/-- A 32-bit read changes memory alone. -/
theorem memRead32_state (s : State) (a : Word) : ∃ m, (s.memRead32 a).2 = { s with mem := m } := by
  simp only [State.memRead32]
  obtain ⟨m0, h0⟩ := readByte_state s a; rw [h0]
  obtain ⟨m1, h1⟩ := readByte_state { s with mem := m0 } (a + 1); rw [h1]
  obtain ⟨m2, h2⟩ := readByte_state { s with mem := m1 } (a + 2); rw [h2]
  obtain ⟨m3, h3⟩ := readByte_state { s with mem := m2 } (a + 3); rw [h3]
  exact ⟨m3, rfl⟩

@[simp] theorem memRead32_regs (s : State) (a : Word) : (s.memRead32 a).2.regs = s.regs := by
  obtain ⟨m, h⟩ := memRead32_state s a; rw [h]
@[simp] theorem memRead32_flag (s : State) (a : Word) : (s.memRead32 a).2.flag = s.flag := by
  obtain ⟨m, h⟩ := memRead32_state s a; rw [h]
@[simp] theorem memRead32_debug (s : State) (a : Word) : (s.memRead32 a).2.debugBuffer = s.debugBuffer := by
  obtain ⟨m, h⟩ := memRead32_state s a; rw [h]
@[simp] theorem memRead32_status (s : State) (a : Word) : (s.memRead32 a).2.status = s.status := by
  obtain ⟨m, h⟩ := memRead32_state s a; rw [h]
@[simp] theorem memRead32_cfg (s : State) (a : Word) : (s.memRead32 a).2.cfg = s.cfg := by
  obtain ⟨m, h⟩ := memRead32_state s a; rw [h]
@[simp] theorem memRead32_drawSeed (s : State) (a : Word) : (s.memRead32 a).2.drawSeed = s.drawSeed := by
  obtain ⟨m, h⟩ := memRead32_state s a; rw [h]

@[simp] theorem peek_memRead32 (s : State) (a x : Word) : (s.memRead32 a).2.peek x = s.peek x := by
  simp [State.memRead32]

/-- A 32-bit read touches its four bytes and no other. -/
theorem touched_memRead32 (s : State) (a x : Word) :
    (s.memRead32 a).2.touched x = true ↔ s.touched x = true ∨ InSpan a 4 x := by
  rw [inSpan_four]
  simp [State.memRead32, or_assoc]

theorem memRead32_wf {s : State} (a : Word) (w : s.mem.wf = true) : (s.memRead32 a).2.mem.wf = true :=
  readByte_wf _ (readByte_wf _ (readByte_wf _ (readByte_wf _ w)))

/-! ## Instruction fetch -/

@[simp] theorem peek_fetchByte (s : State) (x : Word) : s.fetchByte.peek x = s.peek x := by
  simp [State.fetchByte]

@[simp] theorem fetchByte_xx (s : State) : s.fetchByte.regs.xx = s.regs.xx + 1 := by
  simp [State.fetchByte, Regs.set]

/-- A fetched byte changes memory and XX alone. -/
theorem fetch_state (s : State) (n : Nat) :
    ∃ m, s.fetch n = { s with mem := m, regs := s.regs.set .XX (s.regs.xx + BitVec.ofNat 32 n) } := by
  induction n generalizing s with
  | zero => exact ⟨s.mem, by simp [State.fetch, Regs.set]⟩
  | succ n ih =>
    obtain ⟨m, h⟩ := ih s.fetchByte
    obtain ⟨m0, h0⟩ := readByte_state s s.regs.xx
    refine ⟨m, ?_⟩
    have e : s.regs.xx + BitVec.ofNat 32 (n + 1) = s.regs.xx + 1 + BitVec.ofNat 32 n := by bv_omega
    rw [State.fetch, h, e, fetchByte_xx]
    simp only [State.fetchByte, State.setReg, h0, Regs.set]

/-- After fetching `n` bytes XX stands `n` further on (R24, R25). -/
@[simp] theorem fetch_regs (s : State) (n : Nat) :
    (s.fetch n).regs = s.regs.set .XX (s.regs.xx + BitVec.ofNat 32 n) := by
  obtain ⟨m, h⟩ := fetch_state s n; rw [h]
@[simp] theorem fetch_flag (s : State) (n : Nat) : (s.fetch n).flag = s.flag := by
  obtain ⟨m, h⟩ := fetch_state s n; rw [h]
@[simp] theorem fetch_debug (s : State) (n : Nat) : (s.fetch n).debugBuffer = s.debugBuffer := by
  obtain ⟨m, h⟩ := fetch_state s n; rw [h]
@[simp] theorem fetch_status (s : State) (n : Nat) : (s.fetch n).status = s.status := by
  obtain ⟨m, h⟩ := fetch_state s n; rw [h]
@[simp] theorem fetch_cfg (s : State) (n : Nat) : (s.fetch n).cfg = s.cfg := by
  obtain ⟨m, h⟩ := fetch_state s n; rw [h]
@[simp] theorem fetch_drawSeed (s : State) (n : Nat) : (s.fetch n).drawSeed = s.drawSeed := by
  obtain ⟨m, h⟩ := fetch_state s n; rw [h]

@[simp] theorem peek_fetch (s : State) (n : Nat) (x : Word) : (s.fetch n).peek x = s.peek x := by
  induction n generalizing s with
  | zero => rfl
  | succ n ih => rw [State.fetch, ih, peek_fetchByte]

/-- Fetching touches exactly the fetched bytes. -/
theorem touched_fetch (s : State) (n : Nat) (x : Word) :
    (s.fetch n).touched x = true ↔ s.touched x = true ∨ InSpan s.regs.xx n x := by
  induction n generalizing s with
  | zero => simp [State.fetch, inSpan_zero]
  | succ n ih =>
    rw [State.fetch, ih, inSpan_succ, fetchByte_xx]
    simp only [State.fetchByte, touched_setReg, touched_readByte, Bool.or_eq_true, decide_eq_true_eq]
    tauto

theorem fetch_wf {s : State} (n : Nat) (w : s.mem.wf = true) : (s.fetch n).mem.wf = true := by
  induction n generalizing s with
  | zero => exact w
  | succ n ih => exact ih (readByte_wf _ w)

/-- The stream is what successive byte fetches return: byte `j` is read at XX after `j` fetches. -/
theorem stream_eq_fetched (s : State) (j : Nat) :
    s.stream j = ((s.fetch j).readByte (s.fetch j).regs.xx).1 := by
  simp [State.stream, Regs.set]

end Sys2Proof.Machine
end

