-- ==== Sys2Proof/Laws/Codec.lean ====
section
/-! SUPPORT. The codec's tables and pieces: register indices, the ModRM byte, the streams that hold given bytes, the
dispatch mux, and what one operand's bytes decode to. -/

namespace Sys2Proof.Machine

/-! ## Tables -/

@[simp] theorem Reg_ofIndex_index (r : Reg) : Reg.ofIndex r.index = r := by cases r <;> rfl

@[simp] theorem Reg_index_ofIndex : ∀ i : BitVec 3, (Reg.ofIndex i).index = i := by decide

theorem modrmReg_modrmByte : ∀ (reg : BitVec 3) (mode : BitVec 5), modrmReg (modrmByte reg mode) = reg := by decide

theorem modrmMode_modrmByte : ∀ (reg : BitVec 3) (mode : BitVec 5), modrmMode (modrmByte reg mode) = mode := by
  decide

theorem modrmByte_fields : ∀ m : Byte, modrmByte (modrmReg m) (modrmMode m) = m := by decide

/-- R87: no invalid mode has trailing bytes. -/
theorem trailing_of_invalid : ∀ mode : BitVec 5, modeClass mode = .invalid → trailing mode = 0 := by decide

/-- The trailing bytes of each class (R83, R86). -/
theorem trailing_by_class : ∀ mode : BitVec 5, trailing mode =
    match modeClass mode with
    | .imm8 => 1 | .regDisp8 => 1
    | .imm16 => 2 | .regDisp16 => 2
    | .imm32 => 4 | .regDisp32 => 4
    | _ => 0 := by decide

theorem trailing_le (mode : BitVec 5) : trailing mode ≤ 4 := by
  rw [trailing_by_class]; split <;> omega

/-- Every kind is listed. -/
theorem Kind_mem_all (k : Kind) : k ∈ Kind.all := by cases k <;> decide

/-- The dispatch mux answers only a kind with that opcode byte. -/
theorem opcode_of_dispatch {cfg : Config} {op : Byte} {k : Kind} (h : dispatch cfg op = some k) : opcode cfg k = op := by
  have := List.find?_some h
  simpa using this

/-- Where the opcode bytes are distinct, the dispatch mux finds a kind's own byte. -/
theorem dispatch_opcode {cfg : Config} (w : cfg.wellFormed = true) (k : Kind) : dispatch cfg (opcode cfg k) = some k := by
  have hd : (Kind.all.map (opcode cfg)).Nodup := by
    simp only [Config.wellFormed, Bool.and_eq_true, decide_eq_true_eq] at w
    exact w.2
  have hs : (dispatch cfg (opcode cfg k)).isSome = true :=
    List.find?_isSome.mpr ⟨k, Kind_mem_all k, by simp⟩
  obtain ⟨k', hk'⟩ := Option.isSome_iff_exists.mp hs
  have e := opcode_of_dispatch hk'
  rw [hk', List.inj_on_of_nodup_map hd (Kind_mem_all k') (Kind_mem_all k) e]

/-! ## Streams -/

theorem streamHas_append (f : Nat → Byte) (off : Nat) (xs ys : List Byte) :
    StreamHas f off (xs ++ ys) ↔ StreamHas f off xs ∧ StreamHas f (off + xs.length) ys := by
  induction xs generalizing off with
  | nil => simp [StreamHas]
  | cons x xs ih => simp [StreamHas, ih, and_assoc, Nat.add_assoc, Nat.add_comm 1]

/-- A stream holds a list's bytes exactly when it agrees with the list at every place. -/
theorem streamHas_iff (f : Nat → Byte) (off : Nat) (bs : List Byte) :
    StreamHas f off bs ↔ ∀ j (h : j < bs.length), f (off + j) = bs[j] := by
  induction bs generalizing off with
  | nil => simp [StreamHas]
  | cons b bs ih =>
    rw [StreamHas, ih]
    constructor
    · rintro ⟨h0, h⟩ j hj
      cases j with
      | zero => simpa using h0
      | succ j =>
        have := h j (by simpa using hj)
        simpa [Nat.add_assoc, Nat.add_comm 1] using this
    · intro h
      refine ⟨h 0 (by simp), fun j hj => ?_⟩
      have := h (j + 1) (by simpa using hj)
      simpa [Nat.add_assoc, Nat.add_comm 1] using this

/-! ## One operand -/

@[simp] theorem setWidth_extract_byte (v : BitVec 8) : byteOf (v.setWidth 32) 0 = v := by
  apply BitVec.eq_of_toNat_eq
  simp [byteOf, BitVec.toNat_setWidth]
  omega

theorem operand_length_pos (o : Operand) : 1 ≤ o.length ∧ o.length ≤ 5 := by
  have := trailing_le o.descriptor.mode
  unfold Operand.length
  omega

/-- The number of bytes of an encoded descriptor (R81, R94). -/
theorem encodeModRM_length (d : Descriptor) : (encodeModRM d).length = 1 + trailing d.mode := by
  have h := trailing_by_class d.mode
  unfold encodeModRM
  rw [List.length_cons, Nat.add_comm]
  congr 1
  split <;> rename_i e
  · rw [e]; rfl
  · rw [e]; rfl
  · rw [e]; rfl
  · cases hc : modeClass d.mode <;> rw [hc] at h <;> simp_all

@[simp] theorem operand_encode_length (o : Operand) : o.encode.length = o.length := encodeModRM_length _

/-- The mode of a register pair (R86, R91). -/
theorem regReg_mode (q : Reg) : modeClass (0x18#5 ||| q.index.setWidth 5) = .regReg ∧
    (0x18#5 ||| q.index.setWidth 5).extractLsb' 0 3 = q.index := by cases q <;> decide

/-- The descriptor of an operand is one the round-trip law speaks of. -/
theorem operand_descriptor_wellFormed (o : Operand) : o.descriptor.wellFormed = true := by
  rcases o with ⟨r, v⟩ | ⟨r, v⟩ | ⟨r, v⟩ | ⟨r⟩ | ⟨r⟩ | ⟨r, d⟩ | ⟨r, d⟩ | ⟨r, d⟩ | ⟨r, q⟩
  · simp [Operand.descriptor, Descriptor.wellFormed, modeClass]; omega
  · simp [Operand.descriptor, Descriptor.wellFormed, modeClass]; omega
  · rfl
  · rfl
  · rfl
  · simp [Operand.descriptor, Descriptor.wellFormed, modeClass]; omega
  · simp [Operand.descriptor, Descriptor.wellFormed, modeClass]; omega
  · rfl
  · cases r <;> cases q <;> rfl

/-- The descriptor of an operand stands for that operand. -/
@[simp] theorem operand_of_descriptor (o : Operand) : o.descriptor.operand = some o := by
  rcases o with ⟨r, v⟩ | ⟨r, v⟩ | ⟨r, v⟩ | ⟨r⟩ | ⟨r⟩ | ⟨r, d⟩ | ⟨r, d⟩ | ⟨r, d⟩ | ⟨r, q⟩
  · simp [Operand.descriptor, Descriptor.operand, modeClass]
  · simp [Operand.descriptor, Descriptor.operand, modeClass]
  · simp [Operand.descriptor, Descriptor.operand, modeClass]
  · simp [Operand.descriptor, Descriptor.operand, modeClass]
  · simp [Operand.descriptor, Descriptor.operand, modeClass]
  · simp [Operand.descriptor, Descriptor.operand, modeClass]
  · simp [Operand.descriptor, Descriptor.operand, modeClass]
  · simp [Operand.descriptor, Descriptor.operand, modeClass]
  · cases r <;> cases q <;> rfl

end Sys2Proof.Machine
end

