-- ==== Sys2Proof/Laws/Operands.lean ====
section
/-! SUPPORT. Operand access: reading an operand or a place touches the bytes it reads and changes nothing the state
shows; storing at a place changes that place alone. -/

namespace Sys2Proof.Machine

/-! ## Reading -/

/-- Reading a place changes memory alone. -/
theorem readPlace_state (s : State) (p : Place) : ∃ m, (s.readPlace p).2 = { s with mem := m } := by
  cases p with
  | reg r => exact ⟨s.mem, rfl⟩
  | mem a => exact memRead32_state s a

/-- Reading an operand changes memory alone. -/
theorem resolve_state (s : State) (o : Operand) : ∃ m, (s.resolve o).2 = { s with mem := m } := by
  cases o with
  | imm8 r v => exact ⟨s.mem, rfl⟩
  | imm16 r v => exact ⟨s.mem, rfl⟩
  | imm32 r v => exact ⟨s.mem, rfl⟩
  | loc l => exact readPlace_state s _

@[simp] theorem readPlace_regs (s : State) (p : Place) : (s.readPlace p).2.regs = s.regs := by
  obtain ⟨m, h⟩ := readPlace_state s p; rw [h]
@[simp] theorem readPlace_flag (s : State) (p : Place) : (s.readPlace p).2.flag = s.flag := by
  obtain ⟨m, h⟩ := readPlace_state s p; rw [h]
@[simp] theorem readPlace_debug (s : State) (p : Place) : (s.readPlace p).2.debugBuffer = s.debugBuffer := by
  obtain ⟨m, h⟩ := readPlace_state s p; rw [h]
@[simp] theorem readPlace_status (s : State) (p : Place) : (s.readPlace p).2.status = s.status := by
  obtain ⟨m, h⟩ := readPlace_state s p; rw [h]
@[simp] theorem readPlace_cfg (s : State) (p : Place) : (s.readPlace p).2.cfg = s.cfg := by
  obtain ⟨m, h⟩ := readPlace_state s p; rw [h]
@[simp] theorem readPlace_drawSeed (s : State) (p : Place) : (s.readPlace p).2.drawSeed = s.drawSeed := by
  obtain ⟨m, h⟩ := readPlace_state s p; rw [h]

@[simp] theorem resolve_regs (s : State) (o : Operand) : (s.resolve o).2.regs = s.regs := by
  obtain ⟨m, h⟩ := resolve_state s o; rw [h]
@[simp] theorem resolve_flag (s : State) (o : Operand) : (s.resolve o).2.flag = s.flag := by
  obtain ⟨m, h⟩ := resolve_state s o; rw [h]
@[simp] theorem resolve_debug (s : State) (o : Operand) : (s.resolve o).2.debugBuffer = s.debugBuffer := by
  obtain ⟨m, h⟩ := resolve_state s o; rw [h]
@[simp] theorem resolve_status (s : State) (o : Operand) : (s.resolve o).2.status = s.status := by
  obtain ⟨m, h⟩ := resolve_state s o; rw [h]
@[simp] theorem resolve_cfg (s : State) (o : Operand) : (s.resolve o).2.cfg = s.cfg := by
  obtain ⟨m, h⟩ := resolve_state s o; rw [h]
@[simp] theorem resolve_drawSeed (s : State) (o : Operand) : (s.resolve o).2.drawSeed = s.drawSeed := by
  obtain ⟨m, h⟩ := resolve_state s o; rw [h]

@[simp] theorem peek_readPlace (s : State) (p : Place) (x : Word) : (s.readPlace p).2.peek x = s.peek x := by
  cases p with
  | reg r => rfl
  | mem a => exact peek_memRead32 s a x

@[simp] theorem peek_resolve (s : State) (o : Operand) (x : Word) : (s.resolve o).2.peek x = s.peek x := by
  cases o with
  | loc l => exact peek_readPlace s _ x
  | _ => rfl

theorem touched_readPlace (s : State) (p : Place) (x : Word) :
    (s.readPlace p).2.touched x = true ↔ s.touched x = true ∨ p.Covers 4 x := by
  cases p with
  | reg r => simp [State.readPlace, Place.Covers]
  | mem a => exact touched_memRead32 s a x

theorem touched_resolve (s : State) (o : Operand) (x : Word) :
    (s.resolve o).2.touched x = true ↔ s.touched x = true ∨ ReadsByte o s.regs x := by
  cases o with
  | loc l => exact touched_readPlace s _ x
  | _ => simp [State.resolve, ReadsByte]

theorem readPlace_wf {s : State} (p : Place) (w : s.mem.wf = true) : (s.readPlace p).2.mem.wf = true := by
  cases p with
  | reg r => exact w
  | mem a => exact memRead32_wf a w

theorem resolve_wf {s : State} (o : Operand) (w : s.mem.wf = true) : (s.resolve o).2.mem.wf = true := by
  cases o with
  | loc l => exact readPlace_wf _ w
  | _ => exact w

/-- The value at a place depends on the registers and the bytes shown alone. -/
theorem valueAt_congr {s t : State} (p : Place) (hr : t.regs = s.regs) (hm : ∀ x, t.peek x = s.peek x) :
    t.valueAt p = s.valueAt p := by
  cases p with
  | reg r => simp [State.valueAt, State.readPlace, hr]
  | mem a => simp [State.valueAt, State.readPlace, memRead32_value, hm]

/-- The value of an operand depends on the registers and the bytes shown alone. -/
theorem value_congr {s t : State} (o : Operand) (hr : t.regs = s.regs) (hm : ∀ x, t.peek x = s.peek x) :
    t.value o = s.value o := by
  cases o with
  | loc l =>
    have h := valueAt_congr (place l s.regs) hr hm
    simpa [State.value, State.resolve, State.valueAt, hr] using h
  | _ => rfl

/-- Reading one operand first does not change the value of another (R143, R56). -/
@[simp] theorem valueAt_after_resolve (s : State) (o : Operand) (p : Place) :
    (s.resolve o).2.valueAt p = s.valueAt p :=
  valueAt_congr p (resolve_regs s o) (peek_resolve s o)

@[simp] theorem value_after_resolve (s : State) (o o' : Operand) : (s.resolve o).2.value o' = s.value o' :=
  value_congr o' (resolve_regs s o) (peek_resolve s o)

/-! ## Storing -/

/-- A store at a place keeps everything but that place. -/
theorem store_keeps (s : State) (p : Place) (v : Word) :
    s.KeepsBut (s.store p v) (fun r => p = .reg r) (p.Covers 4) := by
  cases p with
  | reg r =>
    exact {
      registers := fun q h => Regs.get_set_other _ _ fun e => h (by rw [e])
      memory := fun x _ => peek_setReg s r v x
      debugBuffer := rfl, status := rfl, cfg := rfl, drawSeed := rfl }
  | mem a =>
    exact {
      registers := fun q _ => by simp [State.store, State.memWrite32]
      memory := fun x h => peek_writeBytes_outside s a x _ h
      debugBuffer := by simp [State.store, State.memWrite32]
      status := by simp [State.store, State.memWrite32]
      cfg := by simp [State.store, State.memWrite32]
      drawSeed := by simp [State.store, State.memWrite32] }

@[simp] theorem store_flag (s : State) (p : Place) (v : Word) : (s.store p v).flag = s.flag := by
  cases p <;> simp [State.store, State.memWrite32]

/-- A stored value is read back. -/
@[simp] theorem valueAt_store (s : State) (p : Place) (v : Word) : (s.store p v).valueAt p = v := by
  cases p with
  | reg r => simp [State.valueAt, State.readPlace, State.store]
  | mem a =>
    have h := peek_memWrite32 s a v
    have h0 := h 0 (by omega); have h1 := h 1 (by omega); have h2 := h 2 (by omega); have h3 := h 3 (by omega)
    simp only [BitVec.add_zero] at h0 h1 h2 h3
    simp [State.valueAt, State.readPlace, memRead32_value, State.store, h0, h1, h2, h3]

/-- A store touches the bytes it writes and no other (R57, R142). -/
theorem touched_store (s : State) (p : Place) (v x : Word) :
    (s.store p v).touched x = true ↔ s.touched x = true ∨ p.Covers 4 x := by
  cases p with
  | reg r => simp [State.store, Place.Covers]
  | mem a => exact touched_writeBytes s a x _

theorem store_wf {s : State} (p : Place) (v : Word) (w : s.mem.wf = true) : (s.store p v).mem.wf = true := by
  cases p with
  | reg r => exact w
  | mem a => exact writeBytes_wf a _ w

/-- The narrow store of KRZ8C keeps everything but the register, or the one byte. -/
theorem storeTop8_keeps (s : State) (p : Place) (v : Byte) :
    s.KeepsBut (s.storeTop8 p v) (fun r => p = .reg r) (p.Covers 1) := by
  cases p with
  | reg r =>
    exact {
      registers := fun q h => Regs.get_set_other _ _ fun e => h (by rw [e])
      memory := fun x _ => peek_setReg s r _ x
      debugBuffer := rfl, status := rfl, cfg := rfl, drawSeed := rfl }
  | mem a =>
    exact {
      registers := fun q _ => rfl
      memory := fun x h => peek_writeByte_other s v fun e => h (by simp [Place.Covers, InSpan, e])
      debugBuffer := rfl, status := rfl, cfg := rfl, drawSeed := rfl }

/-- The narrow store of KRZ16C keeps everything but the register, or the two bytes. -/
theorem storeTop16_keeps (s : State) (p : Place) (v : BitVec 16) :
    s.KeepsBut (s.storeTop16 p v) (fun r => p = .reg r) (p.Covers 2) := by
  cases p with
  | reg r =>
    exact {
      registers := fun q h => Regs.get_set_other _ _ fun e => h (by rw [e])
      memory := fun x _ => peek_setReg s r _ x
      debugBuffer := rfl, status := rfl, cfg := rfl, drawSeed := rfl }
  | mem a =>
    exact {
      registers := fun q _ => by simp [State.storeTop16, State.memWrite16]
      memory := fun x h => peek_writeBytes_outside s a x _ h
      debugBuffer := by simp [State.storeTop16, State.memWrite16]
      status := by simp [State.storeTop16, State.memWrite16]
      cfg := by simp [State.storeTop16, State.memWrite16]
      drawSeed := by simp [State.storeTop16, State.memWrite16] }

theorem storeTop8_wf {s : State} (p : Place) (v : Byte) (w : s.mem.wf = true) : (s.storeTop8 p v).mem.wf = true := by
  cases p with
  | reg r => exact w
  | mem a => exact writeByte_wf a v w

theorem storeTop16_wf {s : State} (p : Place) (v : BitVec 16) (w : s.mem.wf = true) :
    (s.storeTop16 p v).mem.wf = true := by
  cases p with
  | reg r => exact w
  | mem a => exact writeBytes_wf a _ w

theorem touched_storeTop8 (s : State) (p : Place) (v : Byte) (x : Word) :
    (s.storeTop8 p v).touched x = true ↔ s.touched x = true ∨ p.Covers 1 x := by
  cases p with
  | reg r => simp [State.storeTop8, Place.Covers]
  | mem a =>
    have h : InSpan a 1 x ↔ x = a := by rw [inSpan_succ]; simp [inSpan_zero]
    simp [State.storeTop8, Place.Covers, h]

theorem touched_storeTop16 (s : State) (p : Place) (v : BitVec 16) (x : Word) :
    (s.storeTop16 p v).touched x = true ↔ s.touched x = true ∨ p.Covers 2 x := by
  cases p with
  | reg r => simp [State.storeTop16, Place.Covers]
  | mem a => exact touched_writeBytes s a x _

/-! ## The frame relation -/

theorem State.KeepsBut.refl (s : State) : s.KeepsBut s (fun _ => False) (fun _ => False) :=
  ⟨fun _ _ => rfl, fun _ _ => rfl, rfl, rfl, rfl, rfl⟩

/-- Frames compose. -/
theorem State.KeepsBut.trans {s t u : State} {R R' : Reg → Prop} {B B' : Word → Prop}
    (h : s.KeepsBut t R B) (h' : t.KeepsBut u R' B') :
    s.KeepsBut u (fun r => R r ∨ R' r) (fun x => B x ∨ B' x) where
  registers r n := by rw [h'.registers r fun k => n (.inr k), h.registers r fun k => n (.inl k)]
  memory x n := by rw [h'.memory x fun k => n (.inr k), h.memory x fun k => n (.inl k)]
  debugBuffer := h'.debugBuffer.trans h.debugBuffer
  status := h'.status.trans h.status
  cfg := h'.cfg.trans h.cfg
  drawSeed := h'.drawSeed.trans h.drawSeed

/-- A frame may be weakened. -/
theorem State.KeepsBut.weaken {s t : State} {R R' : Reg → Prop} {B B' : Word → Prop} (h : s.KeepsBut t R B)
    (hr : ∀ r, R r → R' r) (hb : ∀ x, B x → B' x) : s.KeepsBut t R' B' where
  registers r n := h.registers r fun k => n (hr r k)
  memory x n := h.memory x fun k => n (hb x k)
  debugBuffer := h.debugBuffer
  status := h.status
  cfg := h.cfg
  drawSeed := h.drawSeed

theorem readPlace_keeps (s : State) (p : Place) : s.KeepsBut (s.readPlace p).2 (fun _ => False) (fun _ => False) :=
  ⟨fun _ _ => by simp, fun _ _ => by simp, by simp, by simp, by simp, by simp⟩

theorem resolve_keeps (s : State) (o : Operand) : s.KeepsBut (s.resolve o).2 (fun _ => False) (fun _ => False) :=
  ⟨fun _ _ => by simp, fun _ _ => by simp, by simp, by simp, by simp, by simp⟩

theorem setFlag_keeps (s : State) (b : Bool) : s.KeepsBut (s.setFlag b) (fun _ => False) (fun _ => False) :=
  ⟨fun _ _ => rfl, fun x _ => peek_setFlag s b x, rfl, rfl, rfl, rfl⟩

end Sys2Proof.Machine
end

