-- ==== Sys2Proof/Laws/PerInstr.lean ====
section
/-! SUPPORT. The per-instruction law `Roles`: an instruction is its kind and its operands, in the roles that R99 and R101
give its row of the opcode table. -/

namespace Sys2Proof.Laws.Roles

/-- The kind and the operands rebuild the instruction, the operand count is the row's (R99), and the destinations are the
operands in the row's destination positions (R101). -/
def Statement (i : Instr) : Prop :=
  Kind.instr i.kind i.operands = some i ∧ i.operands.length = i.kind.arity ∧
    (Machine.destinations i).map Operand.loc =
      ((OperandPos.inOrder.zip i.operands).filter fun po => i.kind.isDestination po.1).map Prod.snd

theorem ata (a : Operand) (b : Loc) : Statement (.ata a b) := ⟨rfl, rfl, rfl⟩
theorem nta (a : Operand) (b : Loc) : Statement (.nta a b) := ⟨rfl, rfl, rfl⟩
theorem ada (a : Operand) (b : Loc) : Statement (.ada a b) := ⟨rfl, rfl, rfl⟩
theorem ekc (a : Operand) (b : Loc) : Statement (.ekc a b) := ⟨rfl, rfl, rfl⟩
theorem dto (a : Operand) (b : Loc) : Statement (.dto a b) := ⟨rfl, rfl, rfl⟩
theorem dro (a : Operand) (b : Loc) : Statement (.dro a b) := ⟨rfl, rfl, rfl⟩
theorem dtosna (a : Operand) (b : Loc) : Statement (.dtosna a b) := ⟨rfl, rfl, rfl⟩
theorem dal (a : Operand) (b : Loc) : Statement (.dal a b) := ⟨rfl, rfl, rfl⟩
theorem krz (a : Operand) (b : Loc) : Statement (.krz a b) := ⟨rfl, rfl, rfl⟩
theorem malkrz (a : Operand) (b : Loc) : Statement (.malkrz a b) := ⟨rfl, rfl, rfl⟩
theorem llonys (a b : Operand) : Statement (.llonys a b) := ⟨rfl, rfl, rfl⟩
theorem xtlonys (a b : Operand) : Statement (.xtlonys a b) := ⟨rfl, rfl, rfl⟩
theorem xolonys (a b : Operand) : Statement (.xolonys a b) := ⟨rfl, rfl, rfl⟩
theorem xylonys (a b : Operand) : Statement (.xylonys a b) := ⟨rfl, rfl, rfl⟩
theorem clo (a b : Operand) : Statement (.clo a b) := ⟨rfl, rfl, rfl⟩
theorem niv (a b : Operand) : Statement (.niv a b) := ⟨rfl, rfl, rfl⟩
theorem llo (a b : Operand) : Statement (.llo a b) := ⟨rfl, rfl, rfl⟩
theorem xtlo (a b : Operand) : Statement (.xtlo a b) := ⟨rfl, rfl, rfl⟩
theorem xolo (a b : Operand) : Statement (.xolo a b) := ⟨rfl, rfl, rfl⟩
theorem xylo (a b : Operand) : Statement (.xylo a b) := ⟨rfl, rfl, rfl⟩
theorem inj (a : Operand) (b c : Loc) : Statement (.inj a b c) := ⟨rfl, rfl, rfl⟩
theorem lat (a : Operand) (b c : Loc) : Statement (.lat a b c) := ⟨rfl, rfl, rfl⟩
theorem latsna (a : Operand) (b c : Loc) : Statement (.latsna a b c) := ⟨rfl, rfl, rfl⟩
theorem krz8i (a : Operand) (b : Loc) : Statement (.krz8i a b) := ⟨rfl, rfl, rfl⟩
theorem krz16i (a : Operand) (b : Loc) : Statement (.krz16i a b) := ⟨rfl, rfl, rfl⟩
theorem krz8c (a : Operand) (b : Loc) : Statement (.krz8c a b) := ⟨rfl, rfl, rfl⟩
theorem krz16c (a : Operand) (b : Loc) : Statement (.krz16c a b) := ⟨rfl, rfl, rfl⟩

end Sys2Proof.Laws.Roles
end

