-- ==== Sys2Proof/Laws/Shapes.lean ====
section
/-! SUPPORT. The shared shapes of the meanings, each once: what it writes, what it keeps, which bytes it touches, the flag
it leaves, and that it keeps memory canonical. -/

namespace Sys2Proof.Machine

@[simp] theorem clearFlag_flag (s : State) : s.clearFlag.flag = false := rfl
@[simp] theorem clearFlag_regs (s : State) : s.clearFlag.regs = s.regs := rfl
@[simp] theorem clearFlag_mem (s : State) : s.clearFlag.mem = s.mem := rfl
@[simp] theorem peek_clearFlag (s : State) (x : Word) : s.clearFlag.peek x = s.peek x := peek_setFlag s false x
@[simp] theorem touched_clearFlag (s : State) (x : Word) : s.clearFlag.touched x = s.touched x := rfl
@[simp] theorem valueAt_setFlag (s : State) (b : Bool) (p : Place) : (s.setFlag b).valueAt p = s.valueAt p :=
  valueAt_congr p rfl fun x => peek_setFlag s b x
@[simp] theorem valueAt_clearFlag (s : State) (p : Place) : s.clearFlag.valueAt p = s.valueAt p :=
  valueAt_setFlag s false p

/-! ## Read a and b, write b (R160 to R167) -/

theorem binary_keeps (s : State) (f : Word → Word → Word) (a : Operand) (b : Loc) :
    s.KeepsBut (s.binary f a b) (fun r => place b s.regs = .reg r) ((place b s.regs).Covers 4) :=
  ((((resolve_keeps s a).trans (readPlace_keeps _ _)).trans (store_keeps _ _ _)).trans (setFlag_keeps _ _)).weaken
    (fun r h => by tauto) (fun x h => by tauto)

theorem binary_valueAt (s : State) (f : Word → Word → Word) (a : Operand) (b : Loc) :
    (s.binary f a b).valueAt (place b s.regs) = f (s.valueAt (place b s.regs)) (s.value a) := by
  have h := valueAt_after_resolve s a (place b s.regs)
  simp only [State.binary, valueAt_clearFlag, valueAt_store]
  rw [← h]
  rfl

@[simp] theorem binary_flag (s : State) (f : Word → Word → Word) (a : Operand) (b : Loc) :
    (s.binary f a b).flag = false := rfl

theorem binary_touched (s : State) (f : Word → Word → Word) (a : Operand) (b : Loc) (x : Word) :
    (s.binary f a b).touched x = true ↔
      s.touched x = true ∨ ReadsByte a s.regs x ∨ (place b s.regs).Covers 4 x := by
  simp only [State.binary, touched_clearFlag, touched_store, touched_readPlace, touched_resolve]
  tauto

theorem binary_wf {s : State} (f : Word → Word → Word) (a : Operand) (b : Loc) (w : s.mem.wf = true) :
    (s.binary f a b).mem.wf = true :=
  store_wf _ _ (readPlace_wf _ (resolve_wf a w))

/-! ## Read a, write b (R180, R182, R183) -/

theorem copy_keeps (s : State) (f : Word → Word) (a : Operand) (b : Loc) :
    s.KeepsBut (s.copy f a b) (fun r => place b s.regs = .reg r) ((place b s.regs).Covers 4) :=
  (((resolve_keeps s a).trans (store_keeps _ _ _)).trans (setFlag_keeps _ _)).weaken
    (fun r h => by tauto) (fun x h => by tauto)

theorem copy_valueAt (s : State) (f : Word → Word) (a : Operand) (b : Loc) :
    (s.copy f a b).valueAt (place b s.regs) = f (s.value a) := by
  simp only [State.copy, valueAt_clearFlag, valueAt_store]
  rfl

@[simp] theorem copy_flag (s : State) (f : Word → Word) (a : Operand) (b : Loc) : (s.copy f a b).flag = false := rfl

theorem copy_touched (s : State) (f : Word → Word) (a : Operand) (b : Loc) (x : Word) :
    (s.copy f a b).touched x = true ↔ s.touched x = true ∨ ReadsByte a s.regs x ∨ (place b s.regs).Covers 4 x := by
  simp only [State.copy, touched_clearFlag, touched_store, touched_resolve]
  tauto

theorem copy_wf {s : State} (f : Word → Word) (a : Operand) (b : Loc) (w : s.mem.wf = true) :
    (s.copy f a b).mem.wf = true :=
  store_wf _ _ (resolve_wf a w)

/-! ## Read a and b, set the flag (R200) -/

theorem compare_keeps (s : State) (p : Word → Word → Bool) (a b : Operand) :
    s.KeepsBut (s.compare p a b) (fun _ => False) (fun _ => False) :=
  (((resolve_keeps s a).trans (resolve_keeps _ b)).trans (setFlag_keeps _ _)).weaken
    (fun r h => by tauto) (fun x h => by tauto)

theorem compare_flag (s : State) (p : Word → Word → Bool) (a b : Operand) :
    (s.compare p a b).flag = p (s.value a) (s.value b) := by
  rw [← value_after_resolve s a b]
  rfl

theorem compare_touched (s : State) (p : Word → Word → Bool) (a b : Operand) (x : Word) :
    (s.compare p a b).touched x = true ↔ s.touched x = true ∨ ReadsByte a s.regs x ∨ ReadsByte b s.regs x := by
  simp only [State.compare, touched_setFlag, touched_resolve, resolve_regs]
  tauto

theorem compare_wf {s : State} (p : Word → Word → Bool) (a b : Operand) (w : s.mem.wf = true) :
    (s.compare p a b).mem.wf = true :=
  resolve_wf b (resolve_wf a w)

/-! ## Two destinations (R144, R220 to R222) -/

/-- Of two stores, the second place holds the second value, and the first place the first value wherever the
second does not cover it: "the later write wins for the bytes they share" (R144). -/
theorem store_store (s : State) (p q : Place) (v w : Word) :
    ((s.store p v).store q w).valueAt q = w ∧ ((s.store p v).store q w).HoldsBut p v q := by
  refine ⟨valueAt_store _ _ _, ?_⟩
  have k := store_keeps (s.store p v) q w
  cases p with
  | reg r =>
    intro h
    rw [k.registers r h]
    simp [State.store]
  | mem a =>
    intro j hj h
    rw [k.memory _ h]
    exact peek_memWrite32 s a v j hj

theorem multiply_keeps (s : State) (f : Word → Word → BitVec 64) (a : Operand) (b c : Loc) :
    s.KeepsBut (s.multiply f a b c) (fun r => place b s.regs = .reg r ∨ place c s.regs = .reg r)
      (fun x => (place b s.regs).Covers 4 x ∨ (place c s.regs).Covers 4 x) :=
  (((((resolve_keeps s a).trans (readPlace_keeps _ _)).trans (store_keeps _ _ _)).trans
    (store_keeps _ _ _)).trans (setFlag_keeps _ _)).weaken (fun r h => by tauto) (fun x h => by tauto)

@[simp] theorem multiply_flag (s : State) (f : Word → Word → BitVec 64) (a : Operand) (b c : Loc) :
    (s.multiply f a b c).flag = false := rfl

/-- The flag is no part of what `HoldsBut` speaks of. -/
theorem State.HoldsBut.clearFlag {t : State} {p q : Place} {v : Word} (h : t.HoldsBut p v q) : t.clearFlag.HoldsBut p v q := by
  cases p with
  | reg r => exact h
  | mem a => intro k hk hc; rw [peek_clearFlag]; exact h k hk hc

theorem multiply_result (s : State) (f : Word → Word → BitVec 64) (a : Operand) (b c : Loc) :
    (s.multiply f a b c).valueAt (place c s.regs) =
        (f (s.valueAt (place b s.regs)) (s.value a)).extractLsb' 32 32 ∧
      (s.multiply f a b c).HoldsBut (place b s.regs)
        ((f (s.valueAt (place b s.regs)) (s.value a)).extractLsb' 0 32) (place c s.regs) := by
  have hb : ((s.resolve a).2.readPlace (place b s.regs)).1 = s.valueAt (place b s.regs) :=
    valueAt_after_resolve s a (place b s.regs)
  have h := store_store ((s.resolve a).2.readPlace (place b s.regs)).2 (place b s.regs) (place c s.regs)
    ((f (s.valueAt (place b s.regs)) (s.value a)).extractLsb' 0 32)
    ((f (s.valueAt (place b s.regs)) (s.value a)).extractLsb' 32 32)
  have e : s.multiply f a b c =
      ((((s.resolve a).2.readPlace (place b s.regs)).2.store (place b s.regs)
        ((f (s.valueAt (place b s.regs)) (s.value a)).extractLsb' 0 32)).store (place c s.regs)
        ((f (s.valueAt (place b s.regs)) (s.value a)).extractLsb' 32 32)).clearFlag := by
    simp only [State.multiply, hb]
    rfl
  rw [e, valueAt_clearFlag]
  exact ⟨h.1, h.2.clearFlag⟩

theorem multiply_touched (s : State) (f : Word → Word → BitVec 64) (a : Operand) (b c : Loc) (x : Word) :
    (s.multiply f a b c).touched x = true ↔ s.touched x = true ∨ ReadsByte a s.regs x ∨
      (place b s.regs).Covers 4 x ∨ (place c s.regs).Covers 4 x := by
  simp only [State.multiply, touched_clearFlag, touched_store, touched_readPlace, touched_resolve]
  tauto

theorem multiply_wf {s : State} (f : Word → Word → BitVec 64) (a : Operand) (b c : Loc) (w : s.mem.wf = true) :
    (s.multiply f a b c).mem.wf = true :=
  store_wf _ _ (store_wf _ _ (readPlace_wf _ (resolve_wf a w)))

end Sys2Proof.Machine
end

