-- ==== Sys2Proof/Laws/Step.lean ====
section
/-! SUPPORT. What a step can do, said once: that `exec` always answers a next state and what that state keeps; the debug
trap; the four things a running machine's step does; and that the start of a run keeps memory canonical. -/

namespace Sys2Proof.Machine

/-! ## Execution -/

/-- The register destinations of an instruction. -/
def writesReg (i : Instr) (r : Reg) : Prop := Loc.reg r ∈ destinations i

/-- The bytes of the memory words at an instruction's memory destinations. -/
def writesByte (i : Instr) (g : Regs) (x : Word) : Prop :=
  ∃ m, Loc.mem m ∈ destinations i ∧ InSpan (effectiveAddress m g) 4 x

/-- What holds of the next state of every instruction: what it keeps, the canonical form, and that only a comparison
leaves the flag true. -/
structure ExecLaw (i : Instr) (s t : State) : Prop where
  keeps : s.KeepsBut t (writesReg i) (writesByte i s.regs)
  wf : s.mem.wf = true → t.mem.wf = true
  flag : t.flag = true → i.kind.isComparison = true

theorem place_covers {l : Loc} {g : Regs} {n : Nat} {x : Word} (h : (place l g).Covers n x) (hn : n ≤ 4) :
    ∃ m, l = .mem m ∧ InSpan (effectiveAddress m g) 4 x := by
  cases l with
  | reg r => exact h.elim
  | mem m => exact ⟨m, rfl, Nat.lt_of_lt_of_le h hn⟩

theorem place_reg {l : Loc} {g : Regs} {r : Reg} (h : place l g = .reg r) : l = .reg r := by
  cases l with
  | reg q => cases h; rfl
  | mem m => cases h

/-- The frame of one destination. -/
theorem keeps_one {s t : State} {i : Instr} {b : Loc} {n : Nat} (hn : n ≤ 4) (hb : b ∈ destinations i)
    (k : s.KeepsBut t (fun r => place b s.regs = .reg r) ((place b s.regs).Covers n)) :
    s.KeepsBut t (writesReg i) (writesByte i s.regs) :=
  k.weaken (fun r h => by rw [writesReg, ← place_reg h]; exact hb) fun x h => by
    obtain ⟨m, rfl, hx⟩ := place_covers h hn
    exact ⟨m, hb, hx⟩

/-- The frame of two destinations. -/
theorem keeps_two {s t : State} {i : Instr} {b c : Loc} (hb : b ∈ destinations i) (hc : c ∈ destinations i)
    (k : s.KeepsBut t (fun r => place b s.regs = .reg r ∨ place c s.regs = .reg r)
      (fun x => (place b s.regs).Covers 4 x ∨ (place c s.regs).Covers 4 x)) :
    s.KeepsBut t (writesReg i) (writesByte i s.regs) :=
  k.weaken
    (fun r h => by
      rcases h with h | h
      · rw [writesReg, ← place_reg h]; exact hb
      · rw [writesReg, ← place_reg h]; exact hc)
    fun x h => by
    rcases h with h | h
    · obtain ⟨m, rfl, hx⟩ := place_covers h le_rfl
      exact ⟨m, hb, hx⟩
    · obtain ⟨m, rfl, hx⟩ := place_covers h le_rfl
      exact ⟨m, hc, hx⟩

theorem binary_law (i : Instr) (s : State) (f : Word → Word → Word) (a : Operand) (b : Loc)
    (hb : b ∈ destinations i) : ExecLaw i s (s.binary f a b) where
  keeps := keeps_one le_rfl hb (binary_keeps s f a b)
  wf := binary_wf f a b
  flag h := by simp at h

theorem copy_law (i : Instr) (s : State) (f : Word → Word) (a : Operand) (b : Loc) (hb : b ∈ destinations i) :
    ExecLaw i s (s.copy f a b) where
  keeps := keeps_one le_rfl hb (copy_keeps s f a b)
  wf := copy_wf f a b
  flag h := by simp at h

theorem compare_law (i : Instr) (s : State) (p : Word → Word → Bool) (a b : Operand)
    (hi : i.kind.isComparison = true) : ExecLaw i s (s.compare p a b) where
  keeps := (compare_keeps s p a b).weaken (fun _ h => h.elim) fun _ h => h.elim
  wf := compare_wf p a b
  flag _ := hi

theorem multiply_law (i : Instr) (s : State) (f : Word → Word → BitVec 64) (a : Operand) (b c : Loc)
    (hb : b ∈ destinations i) (hc : c ∈ destinations i) : ExecLaw i s (s.multiply f a b c) where
  keeps := keeps_two hb hc (multiply_keeps s f a b c)
  wf := multiply_wf f a b c
  flag h := by simp at h

/-- A state with the flag cleared, and nothing else changed. -/
theorem clearFlag_law (i : Instr) (s : State) : ExecLaw i s s.clearFlag where
  keeps := (setFlag_keeps s false).weaken (fun _ h => h.elim) fun _ h => h.elim
  wf w := w
  flag h := by simp at h

/-- Every instruction answers a next state, in every state: no instruction faults while it executes (R147). -/
theorem exec_law (i : Instr) (s : State) : ∃ t, exec i s = .next t ∧ ExecLaw i s t := by
  cases i with
  | ata a b => exact ⟨_, rfl, binary_law _ s _ a b (by simp [destinations])⟩
  | nta a b => exact ⟨_, rfl, binary_law _ s _ a b (by simp [destinations])⟩
  | ada a b => exact ⟨_, rfl, binary_law _ s _ a b (by simp [destinations])⟩
  | ekc a b => exact ⟨_, rfl, binary_law _ s _ a b (by simp [destinations])⟩
  | dto a b => exact ⟨_, rfl, binary_law _ s _ a b (by simp [destinations])⟩
  | dro a b => exact ⟨_, rfl, binary_law _ s _ a b (by simp [destinations])⟩
  | dtosna a b => exact ⟨_, rfl, binary_law _ s _ a b (by simp [destinations])⟩
  | dal a b => exact ⟨_, rfl, binary_law _ s _ a b (by simp [destinations])⟩
  | krz a b => exact ⟨_, rfl, copy_law _ s _ a b (by simp [destinations])⟩
  | malkrz a b =>
    refine ⟨_, rfl, ?_⟩
    split
    · exact copy_law _ s _ a b (by simp [destinations])
    · exact clearFlag_law _ s
  | llonys a b => exact ⟨_, rfl, compare_law _ s _ a b rfl⟩
  | xtlonys a b => exact ⟨_, rfl, compare_law _ s _ a b rfl⟩
  | xolonys a b => exact ⟨_, rfl, compare_law _ s _ a b rfl⟩
  | xylonys a b => exact ⟨_, rfl, compare_law _ s _ a b rfl⟩
  | clo a b => exact ⟨_, rfl, compare_law _ s _ a b rfl⟩
  | niv a b => exact ⟨_, rfl, compare_law _ s _ a b rfl⟩
  | llo a b => exact ⟨_, rfl, compare_law _ s _ a b rfl⟩
  | xtlo a b => exact ⟨_, rfl, compare_law _ s _ a b rfl⟩
  | xolo a b => exact ⟨_, rfl, compare_law _ s _ a b rfl⟩
  | xylo a b => exact ⟨_, rfl, compare_law _ s _ a b rfl⟩
  | inj a b c =>
    refine ⟨_, rfl, ?_, fun w => store_wf _ _ (store_wf _ _ (readPlace_wf _ (resolve_wf a w))), fun h => by simp at h⟩
    exact keeps_two (b := b) (c := c) (by simp [destinations]) (by simp [destinations])
      ((((((resolve_keeps s a).trans (readPlace_keeps _ _)).trans (store_keeps _ _ _)).trans
        (store_keeps _ _ _)).trans (setFlag_keeps _ _)).weaken (fun r h => by tauto) (fun x h => by tauto))
  | lat a b c => exact ⟨_, rfl, multiply_law _ s _ a b c (by simp [destinations]) (by simp [destinations])⟩
  | latsna a b c => exact ⟨_, rfl, multiply_law _ s _ a b c (by simp [destinations]) (by simp [destinations])⟩
  | krz8i a b => exact ⟨_, rfl, copy_law _ s _ a b (by simp [destinations])⟩
  | krz16i a b => exact ⟨_, rfl, copy_law _ s _ a b (by simp [destinations])⟩
  | krz8c a b =>
    refine ⟨_, rfl, ?_, fun w => storeTop8_wf _ _ (resolve_wf a w), fun h => by simp at h⟩
    exact keeps_one (b := b) (n := 1) (by omega) (by simp [destinations])
      ((((resolve_keeps s a).trans (storeTop8_keeps _ _ _)).trans (setFlag_keeps _ _)).weaken
        (fun r h => by tauto) (fun x h => by tauto))
  | krz16c a b =>
    refine ⟨_, rfl, ?_, fun w => storeTop16_wf _ _ (resolve_wf a w), fun h => by simp at h⟩
    exact keeps_one (b := b) (n := 2) (by omega) (by simp [destinations])
      ((((resolve_keeps s a).trans (storeTop16_keeps _ _ _)).trans (setFlag_keeps _ _)).weaken
        (fun r h => by tauto) (fun x h => by tauto))

theorem exec_next {i : Instr} {s t : State} (h : exec i s = .next t) : ExecLaw i s t := by
  obtain ⟨t', h', l⟩ := exec_law i s
  rw [h'] at h
  cases h
  exact l

/-! ## The debug trap -/

/-- What the debug trap does, field by field (R270). -/
theorem debugTrap_fields (s : State) : ∃ m, s.debugTrap =
    { s with
      mem := m
      debugBuffer := s.debugBuffer ++ [(s.memRead32 (s.regs.f5 + 4)).1]
      regs := { s.regs with xx := (s.memRead32 s.regs.f5).1 } } := by
  obtain ⟨m1, h1⟩ := memRead32_state s (s.regs.f5 + 4)
  have hv : ∀ d, (({ s with mem := m1, debugBuffer := d } : State).memRead32 s.regs.f5).1 = (s.memRead32 s.regs.f5).1 := by
    intro d
    have hp : ∀ x, ({ s with mem := m1, debugBuffer := d } : State).peek x = s.peek x := by
      intro x
      rw [← peek_memRead32 s (s.regs.f5 + 4) x, h1, peek_eq, peek_eq]
    simp only [memRead32_value, hp]
  obtain ⟨m2, h2⟩ := memRead32_state
    ({ s with mem := m1, debugBuffer := s.debugBuffer ++ [(s.memRead32 (s.regs.f5 + 4)).1] } : State) s.regs.f5
  refine ⟨m2, ?_⟩
  simp only [State.debugTrap, h1, State.setReg, h2, hv, Regs.set]

theorem peek_debugTrap (s : State) (x : Word) : s.debugTrap.peek x = s.peek x := by
  have h : ∀ (s : State) d, ({ s with debugBuffer := d } : State).peek x = s.peek x := fun s d => by rw [peek_eq, peek_eq]
  simp only [State.debugTrap, peek_setReg, peek_memRead32, h]

theorem touched_debugTrap (s : State) (x : Word) :
    s.debugTrap.touched x = true ↔ s.touched x = true ∨ InSpan (s.regs.f5 + 4) 4 x ∨ InSpan s.regs.f5 4 x := by
  have h : ({ (s.memRead32 (s.regs.f5 + 4)).2 with
      debugBuffer := (s.memRead32 (s.regs.f5 + 4)).2.debugBuffer ++ [(s.memRead32 (s.regs.f5 + 4)).1] } : State).touched x =
      (s.memRead32 (s.regs.f5 + 4)).2.touched x := rfl
  simp only [State.debugTrap, touched_setReg]
  rw [touched_memRead32, h, touched_memRead32, or_assoc, memRead32_regs]

theorem debugTrap_wf {s : State} (w : s.mem.wf = true) : s.debugTrap.mem.wf = true := by
  have h := memRead32_wf (s.regs.f5 + 4) w
  simp only [State.debugTrap, setReg_mem]
  exact memRead32_wf _ h

/-! ## One step -/

/-- A step of a state that fetches is its instruction's. -/
theorem step_of_fetches {s : State} (h : s.Fetches) : step s = s.runInstruction := by
  simp only [step, h.running, State.runStep, h.notReturn, h.notDebug, if_false]

/-- The inversion of a step: the four things that a step with a next state does. -/
theorem step_next {s t : State} (h : step s = .next t) : s.status = .running ∧
    ((s.regs.xx = s.cfg.retSentinel ∧ t = s.halt) ∨
     (s.regs.xx ≠ s.cfg.retSentinel ∧ s.regs.xx = s.cfg.dbgSentinel ∧ t = s.debugTrap) ∨
     (s.Fetches ∧ ∃ e, decode s.cfg s.stream = .error e ∧
        t = (s.fetch e.fetched).raise (rejectRecord s.regs.xx e)) ∨
     (s.Fetches ∧ ∃ d, decode s.cfg s.stream = .ok d ∧ exec d.instr (s.fetch d.length) = .next t ∧
        ExecLaw d.instr (s.fetch d.length) t)) := by
  unfold step at h
  split at h
  · rename_i hr
    refine ⟨hr, ?_⟩
    unfold State.runStep at h
    split at h
    · rename_i hx
      cases h
      exact .inl ⟨hx, rfl⟩
    · split at h
      · rename_i hx hd
        cases h
        exact .inr (.inl ⟨hx, hd, rfl⟩)
      · rename_i hx hd
        have hf : s.Fetches := ⟨hr, hx, hd⟩
        unfold State.runInstruction at h
        split at h
        · rename_i e he
          cases h
          exact .inr (.inr (.inl ⟨hf, e, he, rfl⟩))
        · rename_i d hd'
          exact .inr (.inr (.inr ⟨hf, d, hd', h, exec_next h⟩))
  · cases h
  · cases h

/-- Storing an instruction where the next step fetches it changes memory alone, and keeps it canonical. -/
theorem withFetchWord_state (s : State) (nbits w : Nat) : ∃ m, s.withFetchWord nbits w = { s with mem := m } :=
  writeBytes_state s _ _

theorem withFetchWord_wf {s : State} (nbits w : Nat) (h : s.mem.wf = true) : (s.withFetchWord nbits w).mem.wf = true :=
  writeBytes_wf _ _ h

/-- The stored bytes are what the next step fetches. -/
theorem stream_withFetchWord (s : State) (nbits w j : Nat) (hj : j < maxLength) :
    (s.withFetchWord nbits w).stream j = tableByte nbits w j := by
  have hl : ((List.range maxLength).map (tableByte nbits w)).length = maxLength := by simp
  unfold State.stream State.withFetchWord State.storeFetchWord
  rw [writeBytes_regs, peek_writeBytes_inside _ _ _ j (by rw [hl]; exact hj) (by rw [hl]; decide)]
  simp

/-! ## The start of a run -/

theorem load_wf {s : State} (image : List Byte) (w : s.mem.wf = true) : (s.load image).mem.wf = true := by
  unfold State.load
  split
  · exact w
  · exact writeBytes_wf _ _ w

theorem startRun_wf (cfg : Config) (seed : Nat) (image : List Byte) : (startRun cfg seed image).mem.wf = true :=
  load_wf image rfl

/-- The empty image changes nothing, so reset is the start of its run. -/
theorem startRun_empty (cfg : Config) (seed : Nat) : startRun cfg seed [] = State.created cfg seed := by
  have h : ¬ (State.created cfg seed).cfg.loadBase.toNat + ([] : List Byte).length > 2 ^ 32 := by
    have := cfg.loadBase.isLt
    simp only [State.created, List.length_nil]
    omega
  unfold startRun State.load
  rw [if_neg h]
  rfl

end Sys2Proof.Machine
end

