-- ==== Sys2Proof/Tests/Slice0.lean ====
section
/-! SUPPORT. Tests: the smoke tests of the well-formedness checks, decoding by words written out from the encoding rules,
at most two one-step tests an instruction, and a witness for the hypotheses of every statement that has some. Expected
results come from the vectors of 95_test_vectors.md, named beside each, or from the examples of the rules. -/

namespace Sys2Proof.Tests

open Sys2Proof Sys2Proof.Machine

/-! ## Helpers -/

/-- A machine at `LOAD_BASE` with `code` there, other bytes `data` at `at_`, and F0, F1, F2 and F5 set. -/
def machine (f0 f1 f2 f5 : Word) (code : List Byte) (at_ : Word := 0x2000) (data : List Byte := []) : State :=
  (({ State.reset with
      regs := { f0 := f0, f1 := f1, f2 := f2, f3 := 0, f4 := 0, f5 := f5, f6 := 0, xx := 0x00010000 } } : State).writeBytes
    0x00010000 code).writeBytes at_ data

/-- The next state, if there is one. -/
def next (s : State) : Option State :=
  match step s with
  | .next t => some t
  | .fault _ => none
  | .refused _ => none

/-- A stream that holds a list, zero after it. -/
def stream (bs : List Byte) (j : Nat) : Byte := bs.getD j 0

/-- The decoder's verdict, with the length. -/
def decoded (bs : List Byte) : Option (Instr × Nat) :=
  match decode Config.atReset (stream bs) with
  | .ok d => some (d.instr, d.length)
  | .error _ => none

/-- The decoder's rejection. -/
def rejected (bs : List Byte) : Option Reject :=
  match decode Config.atReset (stream bs) with
  | .ok _ => none
  | .error e => some e

/-- The assembler's image. -/
def image (src : List SourceItem) : Option (List Byte) := (assemble Config.atReset src).toOption

/-- The assembler's fault. -/
def fails (src : List SourceItem) : Option AsmFault :=
  match assemble Config.atReset src with
  | .ok _ => none
  | .error e => some e

def sReg (r : Reg) : SymOperand := ⟨.register r, .none⟩
def sAdr (r : Reg) : SymOperand := ⟨.register r, .address⟩
def sDisp (r : Reg) (d : Word) : SymOperand := ⟨.register r, .displacement d⟩
def sImm (v : Word) : SymOperand := ⟨.value v, .none⟩
def sLab (n : LabelName) : SymOperand := ⟨.label n, .none⟩

/-! ## WellFormed: one ill-formed term for each check -/

/-- R9: the sentinels differ. -/
theorem test_wf_config_equal_sentinels :
    ({ Config.atReset with dbgSentinel := 0xFFFFFF00 } : Config).wellFormed = false := by decide

/-- R9: no extended opcode is a base opcode. -/
theorem test_wf_config_base_opcode : ({ Config.atReset with opcKrz8i := 0x29 } : Config).wellFormed = false := by decide

/-- R9: the extended opcodes are pairwise distinct. -/
theorem test_wf_config_equal_opcodes : ({ Config.atReset with opcKrz8c := 0x33 } : Config).wellFormed = false := by decide

theorem test_wf_config_ok : Config.atReset.wellFormed = true := by decide

/-- R86: mode 0x0C is invalid. -/
theorem test_wf_descriptor_invalid_mode : (Descriptor.mk 1 0x0C 0).wellFormed = false := by decide

/-- R93: a value wider than the mode's trailing bytes, for each width. -/
theorem test_wf_descriptor_imm8 : (Descriptor.mk 0 0x04 0x100).wellFormed = false := by decide
theorem test_wf_descriptor_imm16 : (Descriptor.mk 0 0x05 0x10000).wellFormed = false := by decide
theorem test_wf_descriptor_disp8 : (Descriptor.mk 5 0x14 0x100).wellFormed = false := by decide
theorem test_wf_descriptor_disp16 : (Descriptor.mk 5 0x15 0x10000).wellFormed = false := by decide

/-- R88: RegReg's value is the second selector, RegDirect's and RegInd's is 0. -/
theorem test_wf_descriptor_regReg : (Descriptor.mk 5 0x19 2).wellFormed = false := by decide
theorem test_wf_descriptor_regDirect : (Descriptor.mk 5 0x00 1).wellFormed = false := by decide
theorem test_wf_descriptor_regInd : (Descriptor.mk 5 0x10 1).wellFormed = false := by decide

/-- R234: the operand count. -/
theorem test_wf_sym_count : (SymInstr.mk .inj [sReg .F0, sReg .F1]).wellFormed = false := by decide

/-- R231: `Value/Address` does not encode. -/
theorem test_wf_sym_shape : (SymInstr.mk .krz [⟨.value 4, .address⟩, sReg .F0]).wellFormed = false := by decide

/-- R234: an immediate destination (V-X10). -/
theorem test_wf_sym_immediate_destination : (SymInstr.mk .krz [sReg .F0, sImm 5]).wellFormed = false := by decide

/-- R234: a label destination. -/
theorem test_wf_sym_label_destination : (SymInstr.mk .krz [sReg .F0, sLab 1]).wellFormed = false := by decide

/-- R235: a label as operand a of an instruction that takes none (V-X11). -/
theorem test_wf_sym_label_instruction : (SymInstr.mk .ata [sLab 1, sReg .F0]).wellFormed = false := by decide

/-- R235: a label in a comparison. -/
theorem test_wf_sym_label_comparison : (SymInstr.mk .clo [sReg .F0, sLab 1]).wellFormed = false := by decide

theorem test_wf_sym_ok : (SymInstr.mk .inj [sLab 1, sReg .XX, sAdr .F5]).wellFormed = true := by decide

/-! ## Decoding: every constructor, by a word written out from R80, R82 and R99 -/

/-- `00 00 20` (V-D1). -/
theorem test_decode_ata : decodeTableWord 24 0x200000 = some (.ata (.loc (.reg .F0)) (.reg .F1)) := by decide
/-- `01 04 01 00` (V-A4). -/
theorem test_decode_nta : decodeTableWord 32 0x00010401 = some (.nta (.imm8 .F0 1) (.reg .F0)) := by decide
/-- `02 05 FF 00 40` (R162). -/
theorem test_decode_ada : decodeTableWord 40 0x4000FF0502 = some (.ada (.imm16 .F0 0xFF00) (.reg .F2)) := by decide
/-- `03 60 B0` (R163). -/
theorem test_decode_ekc : decodeTableWord 24 0xB06003 = some (.ekc (.loc (.reg .F3)) (.mem (.regInd .F5))) := by decide
/-- `04 04 04 00` (R164). -/
theorem test_decode_dto : decodeTableWord 32 0x00040404 = some (.dto (.imm8 .F0 4) (.reg .F0)) := by decide
/-- `05 04 20 00` (R165). -/
theorem test_decode_dro : decodeTableWord 32 0x00200405 = some (.dro (.imm8 .F0 0x20) (.reg .F0)) := by decide
/-- `06 20 00` (R166). -/
theorem test_decode_dtosna : decodeTableWord 24 0x002006 = some (.dtosna (.loc (.reg .F1)) (.reg .F0)) := by decide
/-- `07 00 00` (R167). -/
theorem test_decode_dal : decodeTableWord 24 0x000007 = some (.dal (.loc (.reg .F0)) (.reg .F0)) := by decide
/-- `08 06 FF FF FF FF B4 04` (P2). -/
theorem test_decode_krz : decodeTableWord 64 0x04B4FFFFFFFF0608 =
    some (.krz (.imm32 .F0 0xFFFFFFFF) (.mem (.regDisp8 .F5 4))) := by decide
/-- `09 06 00 01 00 08 E0` (P3). -/
theorem test_decode_malkrz : decodeTableWord 56 0xE0080001000609 =
    some (.malkrz (.imm32 .F0 0x00010008) (.reg .XX)) := by decide
/-- `10 00 20` (R201). -/
theorem test_decode_llonys : decodeTableWord 24 0x200010 = some (.llonys (.loc (.reg .F0)) (.loc (.reg .F1))) := by decide
/-- `11 B5 FF FC 20`: mode 0x15 (V-C10). -/
theorem test_decode_xtlonys : decodeTableWord 40 0x20FCFFB511 =
    some (.xtlonys (.loc (.mem (.regDisp16 .F5 0xFFFC))) (.loc (.reg .F1))) := by decide
/-- `12 B6 FF FF FF FC 20`: mode 0x16 (V-C11). -/
theorem test_decode_xolonys : decodeTableWord 56 0x20FCFFFFFFB612 =
    some (.xolonys (.loc (.mem (.regDisp32 .F5 0xFFFFFFFC))) (.loc (.reg .F1))) := by decide
/-- `13 1F 18`: register pairs (V-C13, V-C15). -/
theorem test_decode_xylonys : decodeTableWord 24 0x181F13 =
    some (.xylonys (.loc (.mem (.regReg .F0 .XX))) (.loc (.mem (.regReg .F0 .F0)))) := by decide
/-- `16 04 05 04 05` (V-D13). -/
theorem test_decode_clo : decodeTableWord 40 0x0504050416 = some (.clo (.imm8 .F0 5) (.imm8 .F0 5)) := by decide
/-- `17 24 05 00`: an immediate keeps its `reg` field (V-C7). -/
theorem test_decode_niv : decodeTableWord 32 0x00052417 = some (.niv (.imm8 .F1 5) (.loc (.reg .F0))) := by decide
/-- `18 00 20` (R207). -/
theorem test_decode_llo : decodeTableWord 24 0x200018 = some (.llo (.loc (.reg .F0)) (.loc (.reg .F1))) := by decide
/-- `19 80 C0`: F4 and F6. -/
theorem test_decode_xtlo : decodeTableWord 24 0xC08019 = some (.xtlo (.loc (.reg .F4)) (.loc (.reg .F6))) := by decide
/-- `1A 00 20` (R209). -/
theorem test_decode_xolo : decodeTableWord 24 0x20001A = some (.xolo (.loc (.reg .F0)) (.loc (.reg .F1))) := by decide
/-- `1B FF 20`: mem32[XX + XX] (V-C14). -/
theorem test_decode_xylo : decodeTableWord 24 0x20FF1B =
    some (.xylo (.loc (.mem (.regReg .XX .XX))) (.loc (.reg .F1))) := by decide
/-- `20 00 20 00` (V-T2). -/
theorem test_decode_inj : decodeTableWord 32 0x00200020 = some (.inj (.loc (.reg .F0)) (.reg .F1) (.reg .F0)) := by decide
/-- `28 00 20 40` (V-T5). -/
theorem test_decode_lat : decodeTableWord 32 0x40200028 = some (.lat (.loc (.reg .F0)) (.reg .F1) (.reg .F2)) := by decide
/-- `29 00 B4 04 20` (P2). -/
theorem test_decode_latsna : decodeTableWord 40 0x2004B40029 =
    some (.latsna (.loc (.reg .F0)) (.mem (.regDisp8 .F5 4)) (.reg .F1)) := by decide
/-- `30 B0 00` (R182). -/
theorem test_decode_krz8i : decodeTableWord 24 0x00B030 = some (.krz8i (.loc (.mem (.regInd .F5))) (.reg .F0)) := by decide
/-- `31 20 40` (R183). -/
theorem test_decode_krz16i : decodeTableWord 24 0x402031 = some (.krz16i (.loc (.reg .F1)) (.reg .F2)) := by decide
/-- `32 00 B9`: a register pair as destination (V-C12). -/
theorem test_decode_krz8c : decodeTableWord 24 0xB90032 =
    some (.krz8c (.loc (.reg .F0)) (.mem (.regReg .F5 .F1))) := by decide
/-- `33 00 20` (R185). -/
theorem test_decode_krz16c : decodeTableWord 24 0x200033 = some (.krz16c (.loc (.reg .F0)) (.reg .F1)) := by decide

/-- The longest instruction, with its length (V-D3). -/
theorem test_decode_longest : decoded [0x20, 0x06, 0, 0, 0, 1, 0x16, 0, 0, 0, 0x10, 0x16, 0, 0, 0, 0x20] =
    some (.inj (.imm32 .F0 1) (.mem (.regDisp32 .F0 0x10)) (.mem (.regDisp32 .F0 0x20)), 16) := by decide

/-- V-D4, V-D5: opcode bytes that are no instruction. -/
theorem test_decode_unknown :
    rejected [0x0A, 0, 0] = some (.unknownOpcode 0x0A) ∧ rejected [0x34, 0, 0] = some (.unknownOpcode 0x34) := by decide

/-- V-D6, V-D7: invalid modes, by operand. -/
theorem test_decode_invalid_mode : rejected [0x00, 0x01, 0] = some (.invalidMode 0x00 .a 0x01 2) ∧
    rejected [0x00, 0x00, 0x08] = some (.invalidMode 0x00 .b 0x08 3) := by decide

/-- V-D9, V-D10: an invalid mode comes before an immediate destination. -/
theorem test_decode_priority : rejected [0x08, 0x04, 0x05, 0x11] = some (.invalidMode 0x08 .b 0x11 4) ∧
    rejected [0x20, 0x00, 0x04, 0x05, 0x01] = some (.invalidMode 0x20 .c 0x01 5) := by decide

/-- V-D8, V-D11, V-D12: immediate destinations. -/
theorem test_decode_immediate_destination :
    rejected [0x08, 0x00, 0x04, 0x05] = some (.immediateDestination 0x08 .b 0x04 4) ∧
    rejected [0x20, 0x00, 0x20, 0x04, 0x05] = some (.immediateDestination 0x20 .c 0x04 5) ∧
    rejected [0x09, 0x00, 0x04, 0x01] = some (.immediateDestination 0x09 .b 0x04 4) := by decide

/-- V-C20, V-C16 to V-C19: exactly the modes of R86 are valid. -/
theorem test_decode_invalid_modes : ∀ m : BitVec 5, modeClass m = .invalid ↔
    m ∈ ([0x01, 0x02, 0x03, 0x07, 0x08, 0x09, 0x0A, 0x0B, 0x0C, 0x0D, 0x0E, 0x0F, 0x11, 0x12, 0x13, 0x17] :
      List (BitVec 5)) := by decide

/-! ## One step of each instruction -/

/-- V-A1: the carry out of bit 31 is lost. -/
theorem test_ata : (next (machine 0xFFFFFFFF 0 0 0 [0x00, 0x04, 0x01, 0x00])).map
    (fun t => (t.regs.f0, t.regs.xx, t.flag)) = some (0, 0x00010004, false) := by decide
/-- V-A19: a memory destination that wraps around the top of memory. -/
theorem test_ata_memory : (next (machine 0 0 0 0xFFFFFFFE [0x00, 0x04, 0x01, 0xB0] 0xFFFFFFFE [0x11, 0x22, 0x33, 0x44])).map
    (fun t => (t.memRead32 0xFFFFFFFE).1) = some 0x11223345 := by decide
/-- V-A4. -/
theorem test_nta : (next (machine 0 0 0 0 [0x01, 0x04, 0x01, 0x00])).map (·.regs.f0) = some 0xFFFFFFFF := by decide
/-- R162's example. -/
theorem test_ada : (next (machine 0 0 0x12345678 0 [0x02, 0x05, 0xFF, 0x00, 0x40])).map (·.regs.f2) =
    some 0x00005600 := by decide
/-- V-A7. -/
theorem test_ekc : (next (machine 1 0 0 0 [0x03, 0x06, 0x80, 0, 0, 0, 0x00])).map (·.regs.f0) = some 0x80000001 := by decide
/-- V-A8. -/
theorem test_dto : (next (machine 0x80000000 0 0 0 [0x04, 0x04, 0x1F, 0x00])).map (·.regs.f0) = some 1 := by decide
/-- V-A10: the amount is not masked. -/
theorem test_dto_large : (next (machine 0xFFFFFFFF 0xFFFFFFFF 0 0 [0x04, 0x20, 0x00])).map (·.regs.f0) = some 0 := by decide
/-- V-A12. -/
theorem test_dro : (next (machine 0xFFFFFFFF 0 0 0 [0x05, 0x04, 0x01, 0x00])).map (·.regs.f0) = some 0xFFFFFFFE := by decide
/-- V-L3. -/
theorem test_dro_32 : (next (machine 0xFFFFFFFF 0 0 0 [0x05, 0x04, 0x20, 0x00])).map (·.regs.f0) = some 0 := by decide
/-- V-A13. -/
theorem test_dtosna : (next (machine 0x80000000 0 0 0 [0x06, 0x04, 0x01, 0x00])).map (·.regs.f0) =
    some 0xC0000000 := by decide
/-- V-L3. -/
theorem test_dtosna_large : (next (machine 0x80000001 0 0 0 [0x06, 0x05, 0x01, 0x00, 0x00])).map (·.regs.f0) =
    some 0xFFFFFFFF := by decide
/-- V-A16. -/
theorem test_dal : (next (machine 0x00FF00FF 0x0F0F0F0F 0 0 [0x07, 0x20, 0x00])).map (·.regs.f0) =
    some 0xF00FF00F := by decide
/-- V-M1: XX reads as the next instruction's address. -/
theorem test_krz : (next (machine 0 0 0 0 [0x08, 0xE0, 0x00])).map (fun t => (t.regs.f0, t.regs.xx)) =
    some (0x00010003, 0x00010003) := by decide
/-- V-M2: a memory destination is written, not drawn. -/
theorem test_krz_memory : (next (machine 0 0 0 0x2000 [0x08, 0x05, 0x20, 0x00, 0xB0])).map (fun t => t.mem.take 5) =
    some [(0x2000, 0x00), (0x2001, 0x00), (0x2002, 0x20), (0x2003, 0x00), (0x10000, 0x08)] := by decide
/-- V-M3. -/
theorem test_malkrz : (next { machine 5 7 0 0 [0x09, 0x20, 0x00] with flag := true }).map
    (fun t => (t.regs.f0, t.flag)) = some (7, false) := by decide
/-- V-M4: with the flag false the source stays untouched. -/
theorem test_malkrz_false : (next (machine 5 0 0 0x3000 [0x09, 0xB0, 0x00])).map
    (fun t => (t.regs.f0, t.touched 0x3000, t.flag)) = some (5, false, false) := by decide
/-- V-M6. -/
theorem test_krz8i : (next (machine 0x80123456 0 0 0 [0x30, 0x00, 0x20])).map (·.regs.f1) = some 0xFFFFFF80 := by decide
/-- V-M9. -/
theorem test_krz16i : (next (machine 0 0 0 0x2000 [0x31, 0xB0, 0x20] 0x2000 [0x7F, 0xFF, 0x80, 0x00])).map (·.regs.f1) =
    some 0x00007FFF := by decide
/-- V-M8. -/
theorem test_krz16i_negative : (next (machine 0 0 0 0 [0x31, 0x06, 0xFF, 0xFF, 0, 0, 0x20])).map (·.regs.f1) =
    some 0xFFFFFFFF := by decide
/-- V-M11: one byte, at the effective address. -/
theorem test_krz8c_memory : (next (machine 0x123456AB 0 0 0x2000 [0x32, 0x00, 0xB0] 0x2000 [0x11, 0x22, 0x33, 0x44])).map
    (fun t => (t.memRead32 0x2000).1) = some 0xAB223344 := by decide
/-- V-M14: the top byte of XX, a jump. -/
theorem test_krz8c_xx : (next (machine 0 0 0 0 [0x32, 0x04, 0x01, 0xE0])).map (·.regs.xx) = some 0x01010004 := by decide
/-- V-M12. -/
theorem test_krz16c : (next (machine 0x1234ABCD 0xFFFFFFFF 0 0 [0x33, 0x00, 0x20])).map (·.regs.f1) =
    some 0xABCDFFFF := by decide
/-- V-M13: two bytes, wrapping, and no third. -/
theorem test_krz16c_memory : (next (machine 0x1234ABCD 0 0 0xFFFFFFFF [0x33, 0x00, 0xB0])).map
    (fun t => (t.peek 0xFFFFFFFF, t.peek 0, t.touched 1)) = some (0xAB, 0xCD, false) := by decide

/-- The flag after one comparison of F0 and F1. -/
def flagAfter (op : Byte) (a b : Word) : Option Bool := (next (machine a b 0 0 [op, 0x00, 0x20])).map (·.flag)

/-- Rows 1 and 5 of part 7. -/
theorem test_llonys : flagAfter 0x10 0xFFFFFFFF 1 = some true ∧ flagAfter 0x10 0 0xFFFFFFFF = some false := by decide
theorem test_xtlonys : flagAfter 0x11 0xFFFFFFFF 1 = some false ∧ flagAfter 0x11 0x80000000 0x80000000 = some true := by decide
theorem test_xolonys : flagAfter 0x12 0x80000000 0x80000000 = some true ∧ flagAfter 0x12 1 2 = some false := by decide
theorem test_xylonys : flagAfter 0x13 1 2 = some true ∧ flagAfter 0x13 0x80000000 0x7FFFFFFF = some false := by decide
theorem test_clo : flagAfter 0x16 0x80000000 0x80000000 = some true ∧ flagAfter 0x16 1 2 = some false := by decide
theorem test_niv : flagAfter 0x17 1 2 = some true ∧ flagAfter 0x17 0x80000000 0x80000000 = some false := by decide
theorem test_llo : flagAfter 0x18 0xFFFFFFFF 1 = some false ∧ flagAfter 0x18 0 0xFFFFFFFF = some true := by decide
theorem test_xtlo : flagAfter 0x19 0x80000000 0x7FFFFFFF = some true ∧ flagAfter 0x19 0 0xFFFFFFFF = some false := by decide
theorem test_xolo : flagAfter 0x1A 0x80000000 0x80000000 = some true ∧ flagAfter 0x1A 0xFFFFFFFF 1 = some false := by decide
theorem test_xylo : flagAfter 0x1B 0xFFFFFFFF 1 = some true ∧ flagAfter 0x1B 0x80000000 0x80000000 = some false := by decide
/-- Part 7: an 8-bit immediate 0xFF is not 0xFFFFFFFF. -/
theorem test_clo_immediate : (next (machine 0xFFFFFFFF 0 0 0 [0x16, 0x04, 0xFF, 0x00])).map (·.flag) = some false := by decide

/-- V-T3: b is written after c. -/
theorem test_inj_alias : (next (machine 1 2 9 0 [0x20, 0x00, 0x20, 0x20])).map (·.regs.f1) = some 1 := by decide
/-- V-T4: a call. -/
theorem test_inj_call : (next (machine 0 0 0 0x2000 [0x20, 0x06, 0, 1, 1, 0, 0xE0, 0xB0])).map
    (fun t => (t.regs.xx, (t.memRead32 0x2000).1)) = some (0x00010100, 0x00010008) := by decide
/-- V-T5. -/
theorem test_lat : (next (machine 0xFFFFFFFF 0xFFFFFFFF 0 0 [0x28, 0x00, 0x20, 0x40])).map
    (fun t => (t.regs.f1, t.regs.f2)) = some (1, 0xFFFFFFFE) := by decide
/-- V-T7: c is written after b. -/
theorem test_lat_alias : (next (machine 2 0xFFFFFFFF 0 0 [0x28, 0x00, 0x20, 0x20])).map (·.regs.f1) = some 1 := by decide
/-- V-T11. -/
theorem test_latsna : (next (machine 0x80000000 2 0 0 [0x29, 0x00, 0x20, 0x40])).map
    (fun t => (t.regs.f1, t.regs.f2)) = some (0, 0xFFFFFFFF) := by decide
/-- V-T12: an immediate is not negative. -/
theorem test_latsna_immediate : (next (machine 0 0xFFFFFFFF 0 0 [0x29, 0x04, 0xFF, 0x20, 0x40])).map
    (fun t => (t.regs.f1, t.regs.f2)) = some (0xFFFFFF01, 0xFFFFFFFF) := by decide

/-! ## Sentinels, faults, loader -/

/-- V-X4. -/
theorem test_halt : next { State.reset with regs := { State.reset.regs with xx := 0xFFFFFF00 } } =
    some { State.reset with regs := { State.reset.regs with xx := 0xFFFFFF00 }, status := .halted } := by decide

/-- The state of V-L8. -/
def trapping : State :=
  { machine 0 0 0 0x2000 [] 0x2000 [0x00, 0x01, 0x00, 0x20, 0x00, 0x00, 0x00, 0x2A] with
    regs := { f0 := 0, f1 := 0, f2 := 0, f3 := 0, f4 := 0, f5 := 0x2000, f6 := 0, xx := 0xFFFFFF10 }
    flag := true }

/-- V-L8: nothing is fetched at the sentinel, and the flag stays. -/
theorem test_debug_trap : (next trapping).map (fun t => (t.debugBuffer, t.regs.xx, t.flag, t.touched 0xFFFFFF10)) =
    some ([0x2A], 0x00010020, true, false) := by decide

/-- V-D4 and R149: the record, the cursor, and the one byte fetched. -/
theorem test_unknown_opcode : (next (machine 0 0 0 0 [0x0A])).map (fun t => (t.status, t.regs.xx)) =
    some (.aborted (.unknownOpcode 0x0A 0x00010000 0x00010001), 0x00010001) := by decide
/-- V-D6. -/
theorem test_invalid_mode : (next (machine 0 0 0 0 [0x00, 0x01])).map (·.status) =
    some (.aborted (.invalidMode 0x00 0x00010000 0x00010002 .a 0x01 0x01)) := by decide
/-- V-D8. -/
theorem test_immediate_destination : (next (machine 0 0 0 0 [0x08, 0x00, 0x04, 0x05])).map (·.status) =
    some (.aborted (.immediateDestination 0x08 0x00010000 0x00010004 .b 0x04 0x04)) := by decide
/-- R31: no step after the end of a run. -/
theorem test_terminal : next { State.reset with status := .halted } = none := by decide

/-- The parameters of V-X7 and V-X8. -/
def highBase : Config := { Config.atReset with loadBase := 0xFFFFFFF0 }

/-- V-X7: 16 bytes fit. -/
theorem test_load_fits : (startRun highBase 0 (List.replicate 16 0x5A)).status = .running ∧
    (startRun highBase 0 (List.replicate 16 0x5A)).peek 0xFFFFFFFF = 0x5A := by decide
/-- V-X8: 17 do not. -/
theorem test_load_overflow : (startRun highBase 0 (List.replicate 17 0x5A)).status =
    .aborted (.imageOverflow 0xFFFFFFF0 17) := by decide
/-- V-X9: the empty image loads, and reset is its run. -/
theorem test_load_empty : startRun Config.atReset 0 [] = State.reset := by decide

/-- V-L2: an untouched byte reads the same twice, and a write replaces it. -/
theorem test_first_touch (a : Word) : ((State.reset.readByte a).2.readByte a).1 = (State.reset.readByte a).1 ∧
    (((State.reset.readByte a).2.writeByte a 0x5A).readByte a).1 = 0x5A := by
  simp [State.reset, State.created, State.readByte, State.writeByte, Memory.lookup, Memory.insert]

/-- V-X1. -/
theorem test_write_wraps : (State.reset.memWrite32 0xFFFFFFFE 0x11223344).mem =
    [(0, 0x33), (1, 0x44), (0xFFFFFFFE, 0x11), (0xFFFFFFFF, 0x22)] := by decide

/-- The host's placement of a word is what the next step runs: `00 00 20`. -/
theorem test_withFetchWord : (next (State.reset.withFetchWord 24 0x200000)).map (·.regs.xx) = some 0x00010003 := by decide

/-! ## The assembler -/

/-- V-L6. -/
theorem test_assemble_label : image [.nll 1, .instr ⟨.krz, [sImm 0x12345678, sReg .F0]⟩, .instr ⟨.krz, [sLab 1, sReg .XX]⟩] =
    some [0x08, 0x06, 0x12, 0x34, 0x56, 0x78, 0x00, 0x08, 0x06, 0x00, 0x01, 0x00, 0x00, 0xE0] := by decide
/-- P4, its first three instructions: a displacement, an immediate and a pair of destinations. -/
theorem test_assemble_operands : image [.instr ⟨.krz, [sImm 0x2000, sReg .F5]⟩, .instr ⟨.krz, [sImm 42, sDisp .F5 4]⟩,
      .instr ⟨.inj, [sImm 0xFFFFFF10, sReg .XX, sAdr .F5]⟩] =
    some [0x08, 0x05, 0x20, 0x00, 0xA0, 0x08, 0x04, 0x2A, 0xB4, 0x04,
      0x20, 0x06, 0xFF, 0xFF, 0xFF, 0x10, 0xE0, 0xB0] := by decide
/-- A forward reference (R240). -/
theorem test_assemble_forward : image [.instr ⟨.krz, [sLab 7, sReg .XX]⟩, .nll 7] =
    some [0x08, 0x06, 0x00, 0x01, 0x00, 0x07, 0xE0] := by decide
/-- V-X14: a suffix label is the start of the instruction before it. -/
theorem test_assemble_suffix : (build Config.atReset [.instr ⟨.krz, [sImm 0x12345678, sReg .F0]⟩, .suffixL 3]).toOption.map
    (·.labels) = some [(3, 0x00010000)] := by decide
/-- V-X10, V-X11. -/
theorem test_assemble_shape : fails [.instr ⟨.krz, [sReg .F0, sImm 5]⟩] = some (.badOperandShape 0 (some .b)) ∧
    fails [.nll 1, .instr ⟨.ata, [sLab 1, sReg .F0]⟩] = some (.badOperandShape 1 (some .a)) := by decide
/-- V-X12. -/
theorem test_assemble_unbound : fails [.instr ⟨.krz, [sLab 9, sReg .XX]⟩] = some (.unboundLabel 0 9) := by decide
/-- V-X13. -/
theorem test_assemble_duplicate : fails [.nll 1, .instr ⟨.krz, [sImm 0, sReg .F0]⟩, .nll 1] =
    some (.duplicateLabel 2 1) := by decide
/-- V-X15. -/
theorem test_assemble_suffix_first : fails [.suffixL 3] = some (.suffixLabelWithoutInstruction 0 3) := by decide

/-! ## Witnesses: states and operands that meet all hypotheses of a statement together -/

theorem next_of {s : State} (P : State → Bool) (h : (next s).any P = true) : ∃ t, step s = .next t ∧ P t = true := by
  unfold next at h
  split at h
  · rename_i t e
    exact ⟨t, e, by simpa using h⟩
  · cases h
  · cases h

theorem ok_of {ε α : Type} {x : Except ε α} {a : α} (h : x.toOption = some a) : x = .ok a := by
  cases x with
  | error e => cases h
  | ok b => cases h; rfl

/-- The error of a computation. -/
def errorOf {ε α : Type} (x : Except ε α) : Option ε :=
  match x with
  | .ok _ => none
  | .error e => some e

theorem error_of {ε α : Type} {x : Except ε α} {e : ε} (h : errorOf x = some e) : x = .error e := by
  cases x with
  | error e => cases h; rfl
  | ok b => cases h

/-- Whether a stream holds a list of bytes. -/
def holds (f : Nat → Byte) (off : Nat) : List Byte → Bool
  | [] => true
  | b :: bs => f off == b && holds f (off + 1) bs

theorem streamHas_of {f : Nat → Byte} {bs : List Byte} {off : Nat} (h : holds f off bs = true) : StreamHas f off bs := by
  induction bs generalizing off with
  | nil => trivial
  | cons b bs ih =>
    simp only [holds, Bool.and_eq_true, beq_iff_eq] at h
    exact ⟨h.1, ih h.2⟩

/-- DtoAndDroShiftByTheWholeAmount, DtosnaShiftsTheSignIn: an amount of exactly 32, and a negative value. -/
theorem witness_shift : 32 ≤ (State.reset.value (.imm8 .F0 0x20)).toNat ∧
    ((machine 0x80000000 0 0 0 []).valueAt (.reg .F0)).toInt < 0 := by decide

/-- MalkrzCopiesOnlyWhenTheFlagIsTrue, each clause. -/
theorem witness_malkrz : State.reset.flag = false ∧ (State.reset.setFlag true).flag = true := by decide

/-- The conditions inside `HoldsBut`: two registers, two words, and two words that overlap in two bytes. -/
theorem witness_holdsBut : (Place.reg .F1 ≠ Place.reg .F0) ∧ (¬ (Place.mem 0x3000).Covers 4 0x2003) ∧
    (¬ (Place.mem 0x2002).Covers 4 0x2001) ∧ (Place.mem 0x2002).Covers 4 0x2002 := by
  refine ⟨by decide, ?_, ?_, ?_⟩ <;> simp [Place.Covers, InSpan]

/-- WordDestinationFrame, ExecutionTouchesItsOperandsAlone: a register and a memory destination. -/
theorem witness_word_frame : (∃ t, exec (.ata (.imm8 .F0 1) (.reg .F0)) State.reset = .next t) ∧
    ∃ t, exec (.krz (.imm8 .F0 1) (.mem (.regInd .F5))) State.reset = .next t := ⟨⟨_, rfl⟩, ⟨_, rfl⟩⟩

/-- NarrowDestinationFrame, each clause. -/
theorem witness_narrow_frame : (∃ t, exec (.krz8c (.imm8 .F0 1) (.mem (.regInd .F5))) State.reset = .next t) ∧
    ∃ t, exec (.krz16c (.imm8 .F0 1) (.reg .F0)) State.reset = .next t := ⟨⟨_, rfl⟩, ⟨_, rfl⟩⟩

/-- TwoDestinationFrame. -/
theorem witness_two_frame : ∃ t, exec (.lat (.imm8 .F0 1) (.reg .F0) (.mem (.regInd .F5))) State.reset = .next t := ⟨_, rfl⟩

/-- WriteByteStoresAndNeverDraws: another address. -/
theorem witness_other_byte : (0x2001 : Word) ≠ 0x2000 := by decide

/-- ReadByteIsFirstTouchAndStable, each clause. -/
theorem witness_touched : (State.reset.writeByte 0x2000 1).touched 0x2000 = true ∧ State.reset.touched 0x2000 = false := by
  decide

/-- MultiByteWritesAreBigEndian: the bytes just outside the written span, at the top of memory. -/
theorem witness_outside_span : ¬ InSpan 0xFFFFFFFE 4 0xFFFFFFFD ∧ ¬ InSpan 0xFFFFFFFE 4 2 ∧ InSpan 0xFFFFFFFE 4 1 ∧
    ¬ InSpan 0xFFFFFFFE 2 0 := by simp [InSpan]

/-- FirstTouchesCommute, StepKeepsTheInvariant: the invariant holds of a state. -/
theorem witness_inv : State.reset.Inv := ⟨by decide, by decide⟩

/-- RegistersReadBackAsWritten, each branch. -/
theorem witness_registers : (Reg.F0 ≠ Reg.XX) ∧ Reg.XX = Reg.XX := by decide

/-- V-L1: a descriptor at the largest value of its mode, and one of a register pair, with streams that hold them. -/
theorem witness_descriptor : (Descriptor.mk 3 0x15 0xFFFF).wellFormed = true ∧
    StreamHas (stream [0x75, 0xFF, 0xFF]) 0 (encodeModRM ⟨3, 0x15, 0xFFFF⟩) ∧
    (Descriptor.mk 5 0x19 1).wellFormed = true ∧ StreamHas (stream [0xB9]) 0 (encodeModRM ⟨5, 0x19, 1⟩) :=
  ⟨by decide, streamHas_of (by decide), by decide, streamHas_of (by decide)⟩

/-- DecodeAfterEncode: the encoding of `INJ F0, F1, F0` (V-T2). -/
theorem witness_encode : Config.atReset.wellFormed = true ∧
    StreamHas (stream [0x20, 0x00, 0x20, 0x00]) 0 (encode Config.atReset (.inj (.loc (.reg .F0)) (.reg .F1) (.reg .F0))) :=
  ⟨by decide, streamHas_of (by decide)⟩

/-- DecodeAcceptsOnlyEncodings. -/
theorem witness_decode : decode Config.atReset (stream [0x20, 0x00, 0x20, 0x00]) =
    .ok ⟨.inj (.loc (.reg .F0)) (.reg .F1) (.reg .F0), 4⟩ := ok_of (by decide)

/-- EncodedLengths, each clause. -/
theorem witness_lengths : (Instr.ata (.imm8 .F0 0) (.reg .F0)).operands.length = 2 ∧
    (Instr.inj (.imm8 .F0 0) (.reg .F0) (.reg .F1)).operands.length = 3 := by decide

/-- DispatchInvertsTheOpcodeMap: assigned bytes beside unassigned ones, at the ends of the ranges. -/
theorem witness_dispatch : dispatch Config.atReset 0x09 = some .malkrz ∧ dispatch Config.atReset 0x0A = none ∧
    dispatch Config.atReset 0x0F = none ∧ dispatch Config.atReset 0x10 = some .llonys ∧
    dispatch Config.atReset 0x33 = some .krz16c ∧ dispatch Config.atReset 0x34 = none ∧
    dispatch Config.atReset 0xFF = none := by decide

/-- FirstInvalidModeIsReported, in each position (V-D6, V-D7, V-D10). -/
theorem witness_invalid_a : dispatch Config.atReset 0x00 = some .ata ∧ ([] : List Operand).length < Kind.ata.arity ∧
    OperandPos.inOrder[([] : List Operand).length]? = some .a ∧
    StreamHas (stream [0x00, 0x01]) 1 (([] : List Operand).flatMap Operand.encode) ∧
    modeClass (modrmMode (stream [0x00, 0x01] 1)) = .invalid := ⟨by decide, by decide, by decide, trivial, by decide⟩
theorem witness_invalid_b : dispatch Config.atReset 0x00 = some .ata ∧ [Operand.loc (.reg .F0)].length < Kind.ata.arity ∧
    OperandPos.inOrder[[Operand.loc (.reg .F0)].length]? = some .b ∧
    StreamHas (stream [0x00, 0x00, 0x08]) 1 ([Operand.loc (.reg .F0)].flatMap Operand.encode) ∧
    modeClass (modrmMode (stream [0x00, 0x00, 0x08] (1 + ([Operand.loc (.reg .F0)].flatMap Operand.encode).length))) =
      .invalid := ⟨by decide, by decide, by decide, streamHas_of (by decide), by decide⟩
theorem witness_invalid_c : dispatch Config.atReset 0x20 = some .inj ∧
    [Operand.loc (.reg .F0), .imm8 .F0 5].length < Kind.inj.arity ∧
    OperandPos.inOrder[[Operand.loc (.reg .F0), .imm8 .F0 5].length]? = some .c ∧
    StreamHas (stream [0x20, 0x00, 0x04, 0x05, 0x01]) 1 ([Operand.loc (.reg .F0), .imm8 .F0 5].flatMap Operand.encode) ∧
    modeClass (modrmMode (stream [0x20, 0x00, 0x04, 0x05, 0x01]
      (1 + ([Operand.loc (.reg .F0), .imm8 .F0 5].flatMap Operand.encode).length))) = .invalid :=
  ⟨by decide, by decide, by decide, streamHas_of (by decide), by decide⟩

/-- ImmediateDestinationIsReported, in each position (V-D8, V-D11). -/
theorem witness_immediate_b : dispatch Config.atReset 0x08 = some .krz ∧
    [Operand.loc (.reg .F0), .imm8 .F0 5].length = Kind.krz.arity ∧
    StreamHas (stream [0x08, 0x00, 0x04, 0x05]) 1 ([Operand.loc (.reg .F0), .imm8 .F0 5].flatMap Operand.encode) ∧
    (OperandPos.inOrder.zip [Operand.loc (.reg .F0), .imm8 .F0 5]).find?
      (fun po => Kind.krz.isDestination po.1 && isImmediate po.2) = some (.b, .imm8 .F0 5) :=
  ⟨by decide, by decide, streamHas_of (by decide), by decide⟩
theorem witness_immediate_c : dispatch Config.atReset 0x20 = some .inj ∧
    [Operand.loc (.reg .F0), .loc (.reg .F1), .imm8 .F0 5].length = Kind.inj.arity ∧
    StreamHas (stream [0x20, 0x00, 0x20, 0x04, 0x05]) 1
      ([Operand.loc (.reg .F0), .loc (.reg .F1), .imm8 .F0 5].flatMap Operand.encode) ∧
    (OperandPos.inOrder.zip [Operand.loc (.reg .F0), .loc (.reg .F1), .imm8 .F0 5]).find?
      (fun po => Kind.inj.isDestination po.1 && isImmediate po.2) = some (.c, .imm8 .F0 5) :=
  ⟨by decide, by decide, streamHas_of (by decide), by decide⟩

/-- StepRunsTheDecodedInstruction, StepOnlyChangesDestinations' first clause (V-A1). -/
theorem witness_step : (machine 0xFFFFFFFF 0 0 0 [0x00, 0x04, 0x01, 0x00]).Fetches ∧
    decode (machine 0xFFFFFFFF 0 0 0 [0x00, 0x04, 0x01, 0x00]).cfg (machine 0xFFFFFFFF 0 0 0 [0x00, 0x04, 0x01, 0x00]).stream =
      .ok ⟨.ata (.imm8 .F0 1) (.reg .F0), 4⟩ ∧
    ∃ t, step (machine 0xFFFFFFFF 0 0 0 [0x00, 0x04, 0x01, 0x00]) = .next t ∧ (decide (t.regs.get .F0 ≠ 0xFFFFFFFF)) = true :=
  ⟨⟨rfl, by decide, by decide⟩, ok_of (by decide), next_of (fun t => decide (t.regs.get .F0 ≠ 0xFFFFFFFF)) (by decide)⟩

/-- StepOnlyChangesDestinations' second clause (V-M11): a byte that the step changes. -/
theorem witness_step_memory : (machine 0xAB 0 0 0x2000 [0x32, 0x00, 0xB0] 0x2000 [0x11]).Fetches ∧
    ∃ t, step (machine 0xAB 0 0 0x2000 [0x32, 0x00, 0xB0] 0x2000 [0x11]) = .next t ∧ (decide (t.peek 0x2000 ≠ 0x11)) = true :=
  ⟨⟨rfl, by decide, by decide⟩, next_of (fun t => decide (t.peek 0x2000 ≠ 0x11)) (by decide)⟩

/-- StepHaltsAtTheReturnSentinel. -/
theorem witness_halt : State.reset.status = .running ∧
    ({ State.reset with regs := { State.reset.regs with xx := 0xFFFFFF00 } } : State).regs.xx = State.reset.cfg.retSentinel := by
  decide

/-- TerminalStatusHasNoStep, for both terminal statuses. -/
theorem witness_terminal : State.reset.halt.status ≠ .running ∧
    (State.reset.raise (.imageOverflow 0xFFFFFFF0 17)).status ≠ .running := by decide

/-- RunningMachineAlwaysSteps. -/
theorem witness_running : State.reset.status = .running := rfl

/-- DebugTrapLogsAndReturns. -/
theorem witness_trap : trapping.status = .running ∧ trapping.regs.xx = trapping.cfg.dbgSentinel ∧
    trapping.regs.xx ≠ trapping.cfg.retSentinel := by decide

/-- UnknownOpcodeAborts, and FaultingStepOnlyFetches for an unknown opcode (V-D4). -/
theorem witness_unknown : (machine 0 0 0 0 [0x0A]).Fetches ∧
    dispatch (machine 0 0 0 0 [0x0A]).cfg ((machine 0 0 0 0 [0x0A]).peek (machine 0 0 0 0 [0x0A]).regs.xx) = none ∧
    decode (machine 0 0 0 0 [0x0A]).cfg (machine 0 0 0 0 [0x0A]).stream = .error (.unknownOpcode 0x0A) :=
  ⟨⟨rfl, by decide, by decide⟩, by decide, error_of (by decide)⟩

/-- FaultingStepOnlyFetches for an invalid mode (V-D6) and an immediate destination (V-D8). -/
theorem witness_faults : (machine 0 0 0 0 [0x00, 0x01]).Fetches ∧
    decode (machine 0 0 0 0 [0x00, 0x01]).cfg (machine 0 0 0 0 [0x00, 0x01]).stream = .error (.invalidMode 0x00 .a 0x01 2) ∧
    (machine 0 0 0 0 [0x08, 0x00, 0x04, 0x05]).Fetches ∧
    decode (machine 0 0 0 0 [0x08, 0x00, 0x04, 0x05]).cfg (machine 0 0 0 0 [0x08, 0x00, 0x04, 0x05]).stream =
      .error (.immediateDestination 0x08 .b 0x04 4) :=
  ⟨⟨rfl, by decide, by decide⟩, error_of (by decide), ⟨rfl, by decide, by decide⟩, error_of (by decide)⟩

/-- FlagIsLiveForOneInstruction: a comparison that leaves the flag true. -/
theorem witness_flag : (machine 7 7 0 0 [0x16, 0x00, 0x20]).Fetches ∧
    ∃ t, step (machine 7 7 0 0 [0x16, 0x00, 0x20]) = .next t ∧ (decide (t.status = .running) && t.flag) = true :=
  ⟨⟨rfl, by decide, by decide⟩, next_of (fun t => decide (t.status = .running) && t.flag) (by decide)⟩

/-- InjThroughXxCalls (V-T4). -/
theorem witness_call : (machine 0 0 0 0x2000 [0x20, 0x06, 0, 1, 1, 0, 0xE0, 0xB0]).Fetches ∧
    decode (machine 0 0 0 0x2000 [0x20, 0x06, 0, 1, 1, 0, 0xE0, 0xB0]).cfg
      (machine 0 0 0 0x2000 [0x20, 0x06, 0, 1, 1, 0, 0xE0, 0xB0]).stream =
      .ok ⟨.inj (.imm32 .F0 0x00010100) (.reg .XX) (.mem (.regInd .F5)), 8⟩ :=
  ⟨⟨rfl, by decide, by decide⟩, ok_of (by decide)⟩

/-- StepKeepsTheInvariant, StepKeepsWhatARunOnlyAddsTo: a step of the debug trap, which appends a word. -/
theorem witness_keeps : trapping.Inv ∧ ∃ t, step trapping = .next t ∧ (decide (t.debugBuffer ≠ [])) = true :=
  ⟨⟨by decide, by decide⟩, next_of (fun t => decide (t.debugBuffer ≠ [])) (by decide)⟩

/-- LoaderCopiesTheImage, RunStartsAtTheLoadBase: an image that ends at the last byte; and one byte more, for
ImageOverflowAbortsBeforeAnyStep. -/
theorem witness_load : highBase.loadBase.toNat + (List.replicate 16 (0x5A : Byte)).length ≤ 2 ^ 32 ∧
    (15 : Nat) < (List.replicate 16 (0x5A : Byte)).length ∧
    2 ^ 32 < highBase.loadBase.toNat + (List.replicate 17 (0x5A : Byte)).length := by decide

/-- FirstStepRunsTheImagesFirstInstruction. -/
theorem witness_first_step : Config.atReset.wellFormed = true ∧
    Config.atReset.loadBase.toNat +
      (encode Config.atReset (.ata (.loc (.reg .F0)) (.reg .F1)) ++ [0x0A]).length ≤ 2 ^ 32 ∧
    Config.atReset.loadBase ≠ Config.atReset.retSentinel ∧ Config.atReset.loadBase ≠ Config.atReset.dbgSentinel := by decide

/-- OperandWidthIsTheSmallest at the ends of the ranges (V-E2 to V-E4). -/
theorem witness_width : operandWidth 0xFF = 8 ∧ operandWidth 0x100 = 16 ∧ operandWidth 0xFFFF = 16 ∧
    operandWidth 0x10000 = 32 := by decide

/-- SymbolicOperandsEncodeByShape: a refused shape, and each width. -/
theorem witness_shape : (∀ r, (SymBase.value 4) ≠ .register r) ∧ (SymModifier.address ≠ .none) ∧
    (0xFF : Word).toNat ≤ 0xFF ∧ ¬ (0x100 : Word).toNat ≤ 0xFF ∧ (0xFFFF : Word).toNat ≤ 0xFFFF ∧
    ¬ (0x10000 : Word).toNat ≤ 0xFFFF := ⟨fun _ => SymBase.noConfusion, by decide, by decide, by decide, by decide, by decide⟩

/-- PrefixLabelsBindOnce, SuffixLabelsBindThePrecedingInstruction, each clause. -/
theorem witness_labels : labelAddress [(1, 0x00010000)] 2 = none ∧ labelAddress [(1, 0x00010000)] 1 ≠ none ∧
    (∃ ir e, [IrEntry.mk .krz [.label 1, .resolved (.loc (.reg .XX))] 0] = ir ++ [e]) ∧
    [IrEntry.mk .krz [.label 1, .resolved (.loc (.reg .XX))] 0] ≠ [] := ⟨by decide, by decide, ⟨[], _, rfl⟩, by decide⟩

/-- SuffixLabelsBindThePrecedingInstruction's first clause with a name already bound: an empty IR (log 14). -/
theorem witness_suffix_first : (Assembly.mk [] 0 [(1, 0x00010000)]).ir = [] ∧
    labelAddress (Assembly.mk [] 0 [(1, 0x00010000)]).labels 1 ≠ none := by decide

/-- BuildAcceptsExactlyTheWellFormed: an accepted and a refused instruction. -/
theorem witness_build : (∃ e, buildEntry 0 ⟨.krz, [sLab 1, sReg .XX]⟩ = .ok e) ∧
    buildEntry 0 ⟨.krz, [sReg .F0, sImm 5]⟩ = .error (.badOperandShape 0 (some .b)) :=
  ⟨⟨⟨.krz, [.label 1, .resolved (.loc (.reg .XX))], 0⟩, ok_of (by decide)⟩, error_of (by decide)⟩

/-- BuildAcceptsExactlyTheWellFormed, one refusal for each part of its second clause, at the ends of the positions: the
count, a modified value, an immediate in position c, a label in a comparison's b and in ATA's a. -/
theorem witness_build_refused : errorOf (buildEntry 0 ⟨.inj, [sReg .F0, sReg .F1]⟩) = some (.badOperandShape 0 none) ∧
    errorOf (buildEntry 0 ⟨.clo, [sReg .F0, ⟨.value 4, .displacement 0⟩]⟩) = some (.badOperandShape 0 (some .b)) ∧
    errorOf (buildEntry 0 ⟨.lat, [sReg .F0, sReg .F1, sImm 5]⟩) = some (.badOperandShape 0 (some .c)) ∧
    errorOf (buildEntry 0 ⟨.clo, [sReg .F0, sLab 1]⟩) = some (.badOperandShape 0 (some .b)) ∧
    errorOf (buildEntry 0 ⟨.ata, [sLab 1, sReg .F0]⟩) = some (.badOperandShape 0 (some .a)) := by decide

/-- EmissionFailsOnlyForUnboundLabels: a finished build whose emission fails. -/
theorem witness_unbound : build Config.atReset [.instr ⟨.krz, [sLab 9, sReg .XX]⟩] =
      .ok ⟨[⟨.krz, [.label 9, .resolved (.loc (.reg .XX))], 0⟩], 7, []⟩ ∧
    emit Config.atReset ⟨[⟨.krz, [.label 9, .resolved (.loc (.reg .XX))], 0⟩], 7, []⟩ = .error (.unboundLabel 0 9) :=
  ⟨ok_of (by decide), error_of (by decide)⟩

/-- EmittedImageDecodesToTheIr: a finished build, its image and an entry of its IR. -/
theorem witness_emit : Config.atReset.wellFormed = true ∧ build Config.atReset [.nll 1, .instr ⟨.krz, [sLab 1, sReg .XX]⟩] =
      .ok ⟨[⟨.krz, [.label 1, .resolved (.loc (.reg .XX))], 1⟩], 7, [(1, 0x00010000)]⟩ ∧
    emit Config.atReset ⟨[⟨.krz, [.label 1, .resolved (.loc (.reg .XX))], 1⟩], 7, [(1, 0x00010000)]⟩ =
      .ok [0x08, 0x06, 0x00, 0x01, 0x00, 0x00, 0xE0] :=
  ⟨by decide, ok_of (by decide), ok_of (by decide)⟩

end Sys2Proof.Tests
end

section
/-! PROOFS. What a run only adds to (R6, R28, R30, R51): the bytes that the execution of an instruction touches, and from
them that a step keeps the parameters, the draws and every touched byte, and at most appends to the debug buffer. -/

namespace Sys2Proof.Machine

/-- The touched bytes after an instruction: those from before, and exactly its operands' (R142, R143). -/
theorem exec_touched {i : Instr} {s t : State} (h : exec i s = .next t) (x : Word) :
    t.touched x = true ↔ s.touched x = true ∨ TouchedBy i s x := by
  cases i with
  | ata a b => cases h; exact binary_touched s _ a b x
  | nta a b => cases h; exact binary_touched s _ a b x
  | ada a b => cases h; exact binary_touched s _ a b x
  | ekc a b => cases h; exact binary_touched s _ a b x
  | dto a b => cases h; exact binary_touched s _ a b x
  | dro a b => cases h; exact binary_touched s _ a b x
  | dtosna a b => cases h; exact binary_touched s _ a b x
  | dal a b => cases h; exact binary_touched s _ a b x
  | krz a b => cases h; exact copy_touched s _ a b x
  | malkrz a b =>
    cases h
    by_cases hf : s.flag = true
    · simpa [hf, TouchedBy] using copy_touched s _ a b x
    · simp [hf, TouchedBy]
  | llonys a b => cases h; exact compare_touched s _ a b x
  | xtlonys a b => cases h; exact compare_touched s _ a b x
  | xolonys a b => cases h; exact compare_touched s _ a b x
  | xylonys a b => cases h; exact compare_touched s _ a b x
  | clo a b => cases h; exact compare_touched s _ a b x
  | niv a b => cases h; exact compare_touched s _ a b x
  | llo a b => cases h; exact compare_touched s _ a b x
  | xtlo a b => cases h; exact compare_touched s _ a b x
  | xolo a b => cases h; exact compare_touched s _ a b x
  | xylo a b => cases h; exact compare_touched s _ a b x
  | inj a b c =>
    cases h
    simp only [touched_clearFlag, touched_store, touched_readPlace, touched_resolve, TouchedBy]
    tauto
  | lat a b c => cases h; exact multiply_touched s _ a b c x
  | latsna a b c => cases h; exact multiply_touched s _ a b c x
  | krz8i a b => cases h; exact copy_touched s _ a b x
  | krz16i a b => cases h; exact copy_touched s _ a b x
  | krz8c a b =>
    cases h
    simp only [touched_clearFlag, touched_storeTop8, touched_resolve, TouchedBy, or_assoc]
  | krz16c a b =>
    cases h
    simp only [touched_clearFlag, touched_storeTop16, touched_resolve, TouchedBy, or_assoc]

/-- Fetching un-touches no byte. -/
theorem fetch_keeps_touched {s : State} (n : Nat) {x : Word} (h : s.touched x = true) : (s.fetch n).touched x = true :=
  (touched_fetch s n x).2 (.inl h)

/-- Settles O47, by the four things a step can do: the halt, the debug trap, which alone appends a word, a fault and an
instruction. -/
theorem stepKeepsWhatARunOnlyAddsTo : Obligations.StepKeepsWhatARunOnlyAddsTo := by
  unfold Obligations.StepKeepsWhatARunOnlyAddsTo
  intro s t h
  obtain ⟨-, ⟨-, rfl⟩ | ⟨-, hdbg, rfl⟩ | ⟨-, e, -, rfl⟩ | ⟨-, d, -, hexec, law⟩⟩ := step_next h
  · exact ⟨rfl, rfl, fun _ hx => hx, [], by simp⟩
  · obtain ⟨m, trap⟩ := debugTrap_fields s
    exact ⟨by rw [trap], by rw [trap], fun x hx => (touched_debugTrap s x).2 (.inl hx),
      _, by rw [trap], by simp, fun _ => hdbg⟩
  · exact ⟨by simp, by simp, fun x hx => fetch_keeps_touched _ hx, [], by simp⟩
  · exact ⟨by simp [law.keeps.cfg], by simp [law.keeps.drawSeed],
      fun x hx => (exec_touched hexec x).2 (.inl (fetch_keeps_touched _ hx)), [], by simp [law.keeps.debugBuffer]⟩

end Sys2Proof.Machine
end

section
/-! PROOFS. The state on its own (10_state.md): registers read back, what instruction fetch changes and keeps, that a
terminal status has no step, and the state a run starts in. -/

namespace Sys2Proof.Machine

/-! ## Registers -/

/-- Settles O26, by whether the register read is the one written. -/
theorem registersReadBackAsWritten : Obligations.RegistersReadBackAsWritten := by
  unfold Obligations.RegistersReadBackAsWritten
  intro s r q v
  rw [setReg_regs]
  split
  next same => rw [same, Regs.get_set_same]
  next other => exact Regs.get_set_other s.regs v other

/-! ## Instruction fetch -/

/-- Fetching keeps everything but XX: the bytes it touches read as they would have been drawn. -/
theorem fetch_keeps (s : State) (n : Nat) : s.KeepsBut (s.fetch n) (fun r => r = .XX) (fun _ => False) where
  registers r h := by rw [fetch_regs, Regs.get_set_other s.regs _ h]
  memory x _ := peek_fetch s n x
  debugBuffer := fetch_debug s n
  status := fetch_status s n
  cfg := fetch_cfg s n
  drawSeed := fetch_drawSeed s n

/-- The cursor after a fetch, as a number: XX wraps modulo 2^32 (R25). -/
theorem fetch_xx_toNat (s : State) (n : Nat) : (s.fetch n).regs.xx.toNat = (s.regs.xx.toNat + n) % 2 ^ 32 := by
  have cursor : (s.fetch n).regs.xx = s.regs.xx + BitVec.ofNat 32 n := by
    rw [← Regs.get_XX, fetch_regs, Regs.get_set_same]
  rw [cursor, BitVec.toNat_add, BitVec.toNat_ofNat, Nat.add_mod_mod]

/-- Settles O36: the cursor, the frame, the flag and the touched bytes, each from its lemma about `fetch`. -/
theorem fetchAdvancesTheCursor : Obligations.FetchAdvancesTheCursor := by
  unfold Obligations.FetchAdvancesTheCursor
  intro s n
  exact ⟨fetch_xx_toNat s n, fetch_keeps s n, fetch_flag s n, touched_fetch s n⟩

/-! ## Terminal statuses -/

/-- Settles O38, by the inversion of a step: only a running state has a next state. -/
theorem terminalStatusHasNoStep : Obligations.TerminalStatusHasNoStep := by
  unfold Obligations.TerminalStatusHasNoStep
  intro s terminal t h
  obtain ⟨running, -⟩ := step_next h
  exact terminal running

/-! ## The start of a run -/

/-- The parameters at reset meet the constraints of R9. -/
theorem atReset_wellFormed : Config.atReset.wellFormed = true := by decide

/-- Settles O45: reset is the start of the empty image's run, whose memory is canonical. -/
theorem resetMeetsTheInvariant : Obligations.ResetMeetsTheInvariant := by
  unfold Obligations.ResetMeetsTheInvariant
  have emptyRun : startRun Config.atReset 0 [] = State.reset := startRun_empty Config.atReset 0
  exact {
    memory := emptyRun ▸ startRun_wf Config.atReset 0 []
    parameters := atReset_wellFormed }

/-- An image that fits is written at `LOAD_BASE`, into a run just created (R292). -/
theorem startRun_of_fits {cfg : Config} (seed : Nat) {image : List Byte}
    (fits : cfg.loadBase.toNat + image.length ≤ 2 ^ 32) :
    startRun cfg seed image = (State.created cfg seed).writeBytes cfg.loadBase image :=
  if_neg (Nat.not_lt.mpr fits)

/-- Settles O51: the loader writes memory alone, so every other field is as the run's creation sets it. -/
theorem runStartsAtTheLoadBase : Obligations.RunStartsAtTheLoadBase := by
  unfold Obligations.RunStartsAtTheLoadBase
  intro cfg seed image fits
  obtain ⟨m, loaded⟩ := writeBytes_state (State.created cfg seed) cfg.loadBase image
  rw [startRun_of_fits seed fits, loaded]
  exact ⟨rfl, rfl, rfl, rfl, rfl⟩

end Sys2Proof.Machine
end

section
/-! PROOFS. Memory (20_memory.md): first touch and stability, the multi-byte views, that the order of first touches is
immaterial, that every step keeps the invariant, and what a fetching step changes. -/

namespace Sys2Proof.Machine

/-! ## The invariant -/

/-- Settles O46, by the four things a step can do: each keeps memory canonical, and none writes the parameters. -/
theorem stepKeepsTheInvariant : Obligations.StepKeepsTheInvariant := by
  unfold Obligations.StepKeepsTheInvariant
  intro s t inv h
  obtain ⟨canonical, legal⟩ := inv
  obtain ⟨sameCfg, -⟩ := stepKeepsWhatARunOnlyAddsTo s t h
  refine ⟨?_, sameCfg ▸ legal⟩
  obtain ⟨-, ⟨-, rfl⟩ | ⟨-, -, rfl⟩ | ⟨-, e, -, rfl⟩ | ⟨-, d, -, -, law⟩⟩ := step_next h
  · exact canonical
  · exact debugTrap_wf canonical
  · exact fetch_wf e.fetched canonical
  · exact law.wf (fetch_wf d.length canonical)

/-! ## One byte -/

/-- A read of a touched byte changes nothing (R55). -/
theorem readByte_of_touched {s : State} {a : Word} (h : s.touched a = true) : s.readByte a = (s.peek a, s) := by
  obtain ⟨-, same⟩ | ⟨untouched, -⟩ := readByte_cases s a
  · exact Prod.ext rfl same
  · simp [h] at untouched

/-- A read of an untouched byte stores the byte it returns (R55). -/
theorem readByte_of_untouched {s : State} {a : Word} (h : s.touched a = false) :
    s.readByte a = (s.peek a, s.writeByte a (s.peek a)) := by
  obtain ⟨touched, -⟩ | ⟨-, stored⟩ := readByte_cases s a
  · simp [h] at touched
  · exact Prod.ext rfl stored

/-- Settles O19: the written byte is touched, so the read after the write finds it and draws nothing. -/
theorem writeByteStoresAndNeverDraws : Obligations.WriteByteStoresAndNeverDraws := by
  unfold Obligations.WriteByteStoresAndNeverDraws
  intro s a v
  have touched : (s.writeByte a v).touched a = true := by simp
  refine ⟨touched, ?_, fun x other => ⟨?_, peek_writeByte_other s v other⟩⟩
  · rw [readByte_of_touched touched, peek_writeByte_same]
  · simp [other]

/-- Settles O20: after either kind of read the byte is touched, so the second read changes nothing. -/
theorem readByteIsFirstTouchAndStable : Obligations.ReadByteIsFirstTouchAndStable := by
  unfold Obligations.ReadByteIsFirstTouchAndStable
  intro s a
  have touched : (s.readByte a).2.touched a = true := by simp
  refine ⟨fun h => ?_, fun h => ?_, ?_, fun x => ?_, peek_readByte s a⟩
  · rw [readByte_of_touched h]
  · rw [readByte_of_untouched h]
  · rw [readByte_of_touched touched, peek_readByte, readByte_value]
  · simp

/-! ## Words and half-words -/

/-- A byte of a word as a number. -/
theorem byteOf_toNat (v : Word) (k : Nat) : (byteOf v k).toNat = v.toNat / 2 ^ (8 * k) % 2 ^ 8 := by
  rw [byteOf, BitVec.extractLsb'_toNat, Nat.shiftRight_eq_div_pow]

/-- What a 16-bit read returns: the two bytes the state shows. -/
theorem memRead16_value (s : State) (a : Word) : (s.memRead16 a).1 = beHalf (s.peek a) (s.peek (a + 1)) := by
  simp [State.memRead16]

/-- A 16-bit read touches its two bytes and no other. -/
theorem touched_memRead16 (s : State) (a x : Word) :
    (s.memRead16 a).2.touched x = true ↔ s.touched x = true ∨ x = a ∨ x = a + 1 := by
  simp [State.memRead16, or_assoc]

/-- The bytes of a stored half-word: the top one at `a`, the bottom one at `a + 1`. -/
theorem peek_memWrite16 (s : State) (a : Word) (h : BitVec 16) :
    (s.memWrite16 a h).peek a = h.extractLsb' 8 8 ∧ (s.memWrite16 a h).peek (a + 1) = h.extractLsb' 0 8 := by
  have inside := peek_writeBytes_inside s a (halfBytes h)
  have first := inside 0 (by simp) (by simp)
  rw [BitVec.add_zero] at first
  exact ⟨first, inside 1 (by simp) (by simp)⟩

/-- Settles O21, from the value and the touched bytes of each read. -/
theorem multiByteReadsAreBigEndian : Obligations.MultiByteReadsAreBigEndian := by
  unfold Obligations.MultiByteReadsAreBigEndian
  intro s a
  refine ⟨?_, ?_, touched_memRead16 s a, fun x => ?_⟩
  · rw [memRead16_value, beHalf_toNat]
  · rw [memRead32_value, beWord_toNat]
  · rw [touched_memRead32, inSpan_four]

/-- The top half of a stored word is what a 16-bit read at its address returns (R59). -/
theorem memRead16_memWrite32 (s : State) (a v : Word) :
    ((s.memWrite32 a v).memRead16 a).1.toNat = v.toNat / 2 ^ 16 := by
  have first : (s.memWrite32 a v).peek a = byteOf v 3 := by simpa using peek_memWrite32 s a v 0 (by decide)
  have second : (s.memWrite32 a v).peek (a + 1) = byteOf v 2 := peek_memWrite32 s a v 1 (by decide)
  rw [memRead16_value, beHalf_toNat, first, second, byteOf_toNat, byteOf_toNat]
  omega

/-- Settles O22: inside the written span the bytes are the value's, most significant first; outside it they are as
before. -/
theorem multiByteWritesAreBigEndian : Obligations.MultiByteWritesAreBigEndian := by
  unfold Obligations.MultiByteWritesAreBigEndian
  intro s a v h
  obtain ⟨top, bottom⟩ := peek_memWrite16 s a h
  refine ⟨valueAt_store s (.mem a) v, memRead16_memWrite32 s a v, fun k hk => ?_,
    fun x => peek_writeBytes_outside s a x (wordBytes v), ?_, ?_,
    fun x => peek_writeBytes_outside s a x (halfBytes h)⟩
  · rw [peek_memWrite32 s a v k hk, byteOf_toNat]
  · rw [memRead16_value, top, bottom, beHalf_extract]
  · rw [top, BitVec.extractLsb'_toNat, Nat.shiftRight_eq_div_pow]
    omega

/-! ## The order of first touches -/

/-- A canonical memory lists no address outside the 32-bit space. -/
theorem Memory.lookup_above {lo x : Nat} {m : Memory} (w : Memory.risesFrom lo m = true) (h : 2 ^ 32 ≤ x) :
    Memory.lookup m x = none := by
  induction m generalizing lo with
  | nil => rfl
  | cons c rest ih =>
    obtain ⟨k, b⟩ := c
    simp only [Memory.risesFrom, Bool.and_eq_true, decide_eq_true_eq] at w
    obtain ⟨⟨-, below⟩, rises⟩ := w
    rw [Memory.lookup, if_neg (by omega), ih rises]

/-- The stored byte of a touched address is the one the state shows. -/
theorem lookup_eq_ite_touched (s : State) (a : Word) :
    s.mem.lookup a.toNat = if s.touched a = true then some (s.peek a) else none := by
  rw [peek_eq, State.touched]
  cases Memory.lookup s.mem a.toNat <;> rfl

/-- Canonical memories that touch the same addresses and show the same bytes are the same data. -/
theorem mem_eq_of_shown {s t : State} (ws : s.mem.wf = true) (wt : t.mem.wf = true)
    (touched : ∀ x, s.touched x = t.touched x) (peek : ∀ x, s.peek x = t.peek x) : s.mem = t.mem := by
  refine Memory.eq_of_lookup ws wt fun n => ?_
  by_cases inSpace : n < 2 ^ 32
  · have address : n = (BitVec.ofNat 32 n).toNat := (Nat.mod_eq_of_lt inSpace).symm
    rw [address, lookup_eq_ite_touched s, lookup_eq_ite_touched t, touched, peek]
  · rw [Memory.lookup_above ws (by omega), Memory.lookup_above wt (by omega)]

/-- Two byte reads change memory alone. -/
theorem readByte_readByte_state (s : State) (a b : Word) :
    ∃ m, ((s.readByte a).2.readByte b).2 = { s with mem := m } := by
  obtain ⟨m, first⟩ := readByte_state s a
  rw [first]
  exact readByte_state { s with mem := m } b

/-- Settles O23: both orders touch the same addresses and show the same bytes, so they leave the same canonical
memory, and nothing but memory changed. -/
theorem firstTouchesCommute : Obligations.FirstTouchesCommute := by
  unfold Obligations.FirstTouchesCommute
  intro s a b inv
  refine ⟨?_, peek_readByte s a b⟩
  have sameMem : ((s.readByte a).2.readByte b).2.mem = ((s.readByte b).2.readByte a).2.mem :=
    mem_eq_of_shown (readByte_wf b (readByte_wf a inv.memory)) (readByte_wf a (readByte_wf b inv.memory))
      (fun x => by simp [Bool.or_right_comm]) (fun x => by simp)
  obtain ⟨m, ab⟩ := readByte_readByte_state s a b
  obtain ⟨m', ba⟩ := readByte_readByte_state s b a
  rw [ab, ba] at sameMem ⊢
  exact congrArg (fun m => { s with mem := m }) sameMem

/-! ## What a fetching step changes -/

/-- A fetching step raises a decoding fault or runs the decoded instruction. -/
theorem step_next_of_fetches {s t : State} (fetches : s.Fetches) (h : step s = .next t) :
    (∃ e, t = (s.fetch e.fetched).raise (rejectRecord s.regs.xx e)) ∨
    ∃ d, decode s.cfg s.stream = .ok d ∧ ExecLaw d.instr (s.fetch d.length) t := by
  obtain ⟨-, ⟨ret, -⟩ | ⟨-, dbg, -⟩ | ⟨-, e, -, raised⟩ | ⟨-, d, decoded, -, law⟩⟩ := step_next h
  · exact (fetches.notReturn ret).elim
  · exact (fetches.notDebug dbg).elim
  · exact .inl ⟨e, raised⟩
  · exact .inr ⟨d, decoded, law⟩

/-- An instruction's step, its fetch included, changes XX and the instruction's destinations alone, their addresses
computed from the registers at the end of decode (R138, R139). -/
theorem fetch_exec_keeps {i : Instr} {s t : State} {n : Nat} (law : ExecLaw i (s.fetch n) t) :
    s.KeepsBut t (fun r => r = .XX ∨ writesReg i r) (writesByte i (s.fetch n).regs) :=
  ((fetch_keeps s n).trans law.keeps).weaken (fun _ h => h) fun _ h => h.resolve_left id

/-- Settles O48: a fault changes XX alone, an instruction XX and its destinations, so whatever else differs is a
destination. -/
theorem stepOnlyChangesDestinations : Obligations.StepOnlyChangesDestinations := by
  unfold Obligations.StepOnlyChangesDestinations
  intro s t fetches h
  obtain ⟨e, rfl⟩ | ⟨d, decoded, law⟩ := step_next_of_fetches fetches h
  · refine ⟨fun r notXX changed => absurd ?_ changed, fun x changed => absurd ?_ changed⟩
    · exact (fetch_keeps s e.fetched).registers r notXX
    · rw [peek_raise, peek_fetch]
  · have keeps := fetch_exec_keeps law
    refine ⟨fun r notXX changed => ⟨d, decoded, ?_⟩, fun x changed => ?_⟩
    · have written := not_imp_comm.mp (keeps.registers r) changed
      exact written.resolve_left notXX
    · obtain ⟨m, isDestination, inside⟩ := not_imp_comm.mp (keeps.memory x) changed
      exact ⟨d, m, decoded, isDestination, inside⟩

end Sys2Proof.Machine
end

section
/-! PROOFS. The codec of one operand (30_encoding.md R82 to R94): the bytes of each operand form, and that the operand
decoder accepts exactly an operand's own bytes. -/

namespace Sys2Proof.Machine

/-! ## The trailing bytes -/

/-- The bytes of a descriptor without trailing bytes. -/
theorem encodeModRM_of_trailing_zero {d : Descriptor} (h : trailing d.mode = 0) :
    encodeModRM d = [modrmByte d.reg d.mode] := by
  simp [encodeModRM, h]

/-- The bytes of a descriptor with one trailing byte. -/
theorem encodeModRM_of_trailing_one {d : Descriptor} (h : trailing d.mode = 1) :
    encodeModRM d = [modrmByte d.reg d.mode, byteOf d.value 0] := by
  simp [encodeModRM, h]

/-- The bytes of a descriptor with two trailing bytes. -/
theorem encodeModRM_of_trailing_two {d : Descriptor} (h : trailing d.mode = 2) :
    encodeModRM d = modrmByte d.reg d.mode :: halfBytes (d.value.setWidth 16) := by
  simp [encodeModRM, h]

/-- The bytes of a descriptor with four trailing bytes. -/
theorem encodeModRM_of_trailing_four {d : Descriptor} (h : trailing d.mode = 4) :
    encodeModRM d = modrmByte d.reg d.mode :: wordBytes d.value := by
  simp [encodeModRM, h]

/-- The first byte of a descriptor's encoding is its ModRM byte (R82). -/
theorem streamHas_modrm {f : Nat → Byte} {off : Nat} {d : Descriptor} (h : StreamHas f off (encodeModRM d)) :
    f off = modrmByte d.reg d.mode := by
  rw [encodeModRM, StreamHas] at h
  exact h.1

/-- `T(mode)` is 0, 1, 2 or 4 (R83). -/
theorem trailing_cases : ∀ mode : BitVec 5,
    trailing mode = 0 ∨ trailing mode = 1 ∨ trailing mode = 2 ∨ trailing mode = 4 := by decide

/-- A value that fits in the trailing bytes of its descriptor is read back from them (R84, R94). -/
theorem readTrailing_of_streamHas {f : Nat → Byte} {off : Nat} {d : Descriptor}
    (fits : d.value.toNat < 2 ^ (8 * trailing d.mode)) (h : StreamHas f off (encodeModRM d)) :
    readTrailing f (off + 1) (trailing d.mode) = d.value := by
  obtain t | t | t | t := trailing_cases d.mode
  · rw [t] at fits ⊢
    apply BitVec.eq_of_toNat_eq
    simp [readTrailing] at fits ⊢
    omega
  · rw [encodeModRM_of_trailing_one t] at h
    obtain ⟨-, b0, -⟩ := h
    rw [t] at fits ⊢
    apply BitVec.eq_of_toNat_eq
    simp only [readTrailing, b0, BitVec.toNat_setWidth, byteOf_toNat]
    omega
  · rw [encodeModRM_of_trailing_two t] at h
    obtain ⟨-, b0, b1, -⟩ := h
    rw [t] at fits ⊢
    apply BitVec.eq_of_toNat_eq
    simp only [readTrailing, b0, b1, beHalf_extract, BitVec.toNat_setWidth]
    omega
  · rw [encodeModRM_of_trailing_four t] at h
    obtain ⟨-, b0, b1, b2, b3, -⟩ := h
    rw [t]
    simp only [readTrailing, b0, b1, b2, b3, beWord_byteOf]

/-- The bytes from which a descriptor was read are its own encoding. -/
theorem streamHas_of_readTrailing (f : Nat → Byte) (off : Nat) :
    StreamHas f off (encodeModRM ⟨modrmReg (f off), modrmMode (f off),
      readTrailing f (off + 1) (trailing (modrmMode (f off)))⟩) := by
  obtain t | t | t | t := trailing_cases (modrmMode (f off))
  · rw [encodeModRM_of_trailing_zero t]
    simp [StreamHas, modrmByte_fields]
  · rw [encodeModRM_of_trailing_one t]
    simp [StreamHas, modrmByte_fields, readTrailing, t]
  · rw [encodeModRM_of_trailing_two t]
    simp [StreamHas, modrmByte_fields, readTrailing, t]
  · rw [encodeModRM_of_trailing_four t]
    simp [StreamHas, modrmByte_fields, readTrailing, t]

/-! ## Descriptors -/

/-- An invalid mode is answered with its ModRM byte (R87). -/
theorem decodeDescriptor_invalid {f : Nat → Byte} {off : Nat} (h : modeClass (modrmMode (f off)) = .invalid) :
    decodeDescriptor f off = .error (f off) := by
  simp only [decodeDescriptor, h]

/-- A register pair's value is the low three bits of its mode (R91). -/
theorem decodeDescriptor_regReg {f : Nat → Byte} {off : Nat} (h : modeClass (modrmMode (f off)) = .regReg) :
    decodeDescriptor f off = .ok (⟨modrmReg (f off), modrmMode (f off),
      ((modrmMode (f off)).extractLsb' 0 3).setWidth 32⟩, off + 1) := by
  simp only [decodeDescriptor, h]

/-- Every other valid mode's value is its trailing bytes: the two hypotheses leave the last arm of the decoder. -/
theorem decodeDescriptor_trailing {f : Nat → Byte} {off : Nat} (valid : modeClass (modrmMode (f off)) ≠ .invalid)
    (notPair : modeClass (modrmMode (f off)) ≠ .regReg) :
    decodeDescriptor f off = .ok (⟨modrmReg (f off), modrmMode (f off),
      readTrailing f (off + 1) (trailing (modrmMode (f off)))⟩, off + 1 + trailing (modrmMode (f off))) := by
  simp only [decodeDescriptor]

/-- No register pair has trailing bytes (R91). -/
theorem trailing_of_regReg {mode : BitVec 5} (h : modeClass mode = .regReg) : trailing mode = 0 := by
  rw [trailing_by_class, h]

/-- A well-formed descriptor's mode is valid. -/
theorem wellFormed_valid {d : Descriptor} (w : d.wellFormed = true) : modeClass d.mode ≠ .invalid := by
  intro invalid
  simp [Descriptor.wellFormed, invalid] at w

/-- A well-formed register pair's value is the index selector in its mode (R88, R91). -/
theorem wellFormed_regReg {d : Descriptor} (w : d.wellFormed = true) (h : modeClass d.mode = .regReg) :
    d.value = (d.mode.extractLsb' 0 3).setWidth 32 := by
  simpa [Descriptor.wellFormed, h] using w

/-- Of any other mode, a descriptor is well formed exactly if its value fits in the mode's trailing bytes. -/
theorem wellFormed_iff_fits {d : Descriptor} (valid : modeClass d.mode ≠ .invalid) (notPair : modeClass d.mode ≠ .regReg) :
    d.wellFormed = true ↔ d.value.toNat < 2 ^ (8 * trailing d.mode) := by
  rw [trailing_by_class]
  unfold Descriptor.wellFormed
  cases h : modeClass d.mode <;> simp_all [BitVec.toNat_eq] <;> omega

/-- `n` trailing bytes are a number of `8 * n` bits (R84). -/
theorem readTrailing_lt (f : Nat → Byte) (off n : Nat) : (readTrailing f off n).toNat < 2 ^ (8 * n) := by
  unfold readTrailing
  split
  next => simp only [BitVec.toNat_setWidth]; omega
  next => simp only [BitVec.toNat_setWidth]; omega
  next => exact BitVec.isLt _
  next => simp

/-- A stream that holds a well-formed descriptor's bytes decodes to it, and to the place after them (R93). -/
theorem decodeDescriptor_of_streamHas {f : Nat → Byte} {off : Nat} {d : Descriptor} (w : d.wellFormed = true)
    (h : StreamHas f off (encodeModRM d)) : decodeDescriptor f off = .ok (d, off + 1 + trailing d.mode) := by
  have reg : modrmReg (f off) = d.reg := by rw [streamHas_modrm h, modrmReg_modrmByte]
  have mode : modrmMode (f off) = d.mode := by rw [streamHas_modrm h, modrmMode_modrmByte]
  have valid := wellFormed_valid w
  by_cases pair : modeClass d.mode = .regReg
  · rw [decodeDescriptor_regReg (mode ▸ pair), reg, mode, ← wellFormed_regReg w pair, trailing_of_regReg pair]
  · have fits := (wellFormed_iff_fits valid pair).1 w
    rw [decodeDescriptor_trailing (mode ▸ valid) (mode ▸ pair), reg, mode, readTrailing_of_streamHas fits h]

/-- A decoded descriptor is well formed, its bytes are those of the stream, and the place after them is reported. -/
theorem streamHas_of_decodeDescriptor {f : Nat → Byte} {off n : Nat} {d : Descriptor}
    (h : decodeDescriptor f off = .ok (d, n)) :
    d.wellFormed = true ∧ StreamHas f off (encodeModRM d) ∧ n = off + 1 + trailing d.mode := by
  by_cases invalid : modeClass (modrmMode (f off)) = .invalid
  · rw [decodeDescriptor_invalid invalid] at h
    cases h
  by_cases pair : modeClass (modrmMode (f off)) = .regReg
  · rw [decodeDescriptor_regReg pair] at h
    cases h
    have noTrailing := trailing_of_regReg pair
    refine ⟨by simp [Descriptor.wellFormed, pair], ?_, by simp [noTrailing]⟩
    rw [encodeModRM_of_trailing_zero noTrailing]
    simp [StreamHas, modrmByte_fields]
  · rw [decodeDescriptor_trailing invalid pair] at h
    cases h
    exact ⟨(wellFormed_iff_fits invalid pair).2 (readTrailing_lt f _ _), streamHas_of_readTrailing f off, rfl⟩

/-- Settles O28: a register pair is its ModRM byte alone, every other descriptor is read back from its trailing bytes. -/
theorem descriptorRoundTrip : Obligations.DescriptorRoundTrip := by
  unfold Obligations.DescriptorRoundTrip
  intro d f off w h
  exact decodeDescriptor_of_streamHas w h

/-! ## Operands -/

/-- The mode value of each class that has one (R86). -/
theorem mode_of_class : ∀ mode : BitVec 5,
    (modeClass mode = .regDirect → mode = 0x00) ∧
    (modeClass mode = .imm8 → mode = 0x04) ∧
    (modeClass mode = .imm16 → mode = 0x05) ∧
    (modeClass mode = .imm32 → mode = 0x06) ∧
    (modeClass mode = .regInd → mode = 0x10) ∧
    (modeClass mode = .regDisp8 → mode = 0x14) ∧
    (modeClass mode = .regDisp16 → mode = 0x15) ∧
    (modeClass mode = .regDisp32 → mode = 0x16) := by decide

/-- A register pair's mode is made of its index selector (R86, R91). -/
theorem regReg_mode_of_selector : ∀ mode : BitVec 5, modeClass mode = .regReg →
    0x18 ||| (mode.extractLsb' 0 3).setWidth 5 = mode := by decide

/-- Cutting a word to a width that holds it loses nothing. -/
theorem setWidth_setWidth_of_lt {v : Word} {n : Nat} (h : v.toNat < 2 ^ n) : (v.setWidth n).setWidth 32 = v := by
  apply BitVec.eq_of_toNat_eq
  rw [BitVec.toNat_setWidth, BitVec.toNat_setWidth, Nat.mod_eq_of_lt h, Nat.mod_eq_of_lt v.isLt]

/-- A descriptor is its register's index, its mode and its value. -/
theorem descriptor_eq {d : Descriptor} {mode : BitVec 5} {value : Word} (hm : d.mode = mode) (hv : value = d.value) :
    (⟨(Reg.ofIndex d.reg).index, mode, value⟩ : Descriptor) = d := by
  rw [Reg_index_ofIndex, ← hm, hv]

/-- Every well-formed descriptor is an operand's. -/
theorem exists_operand_of_wellFormed {d : Descriptor} (w : d.wellFormed = true) : ∃ o : Operand, o.descriptor = d := by
  obtain ⟨regDirect, imm8, imm16, imm32, regInd, regDisp8, regDisp16, regDisp32⟩ := mode_of_class d.mode
  unfold Descriptor.wellFormed at w
  cases c : modeClass d.mode <;> rw [c] at w
  case regDirect => exact ⟨.loc (.reg _), descriptor_eq (regDirect c) (eq_of_beq w).symm⟩
  case imm8 => exact ⟨.imm8 _ _, descriptor_eq (imm8 c) (setWidth_setWidth_of_lt (of_decide_eq_true w))⟩
  case imm16 => exact ⟨.imm16 _ _, descriptor_eq (imm16 c) (setWidth_setWidth_of_lt (of_decide_eq_true w))⟩
  case imm32 => exact ⟨.imm32 _ _, descriptor_eq (imm32 c) rfl⟩
  case regInd => exact ⟨.loc (.mem (.regInd _)), descriptor_eq (regInd c) (eq_of_beq w).symm⟩
  case regDisp8 =>
    exact ⟨.loc (.mem (.regDisp8 _ _)), descriptor_eq (regDisp8 c) (setWidth_setWidth_of_lt (of_decide_eq_true w))⟩
  case regDisp16 =>
    exact ⟨.loc (.mem (.regDisp16 _ _)), descriptor_eq (regDisp16 c) (setWidth_setWidth_of_lt (of_decide_eq_true w))⟩
  case regDisp32 => exact ⟨.loc (.mem (.regDisp32 _ _)), descriptor_eq (regDisp32 c) rfl⟩
  case regReg =>
    refine ⟨.loc (.mem (.regReg _ (Reg.ofIndex (d.mode.extractLsb' 0 3)))), descriptor_eq ?_ ?_⟩
    · rw [Reg_index_ofIndex]
      exact (regReg_mode_of_selector d.mode c).symm
    · rw [Reg_index_ofIndex]
      exact (eq_of_beq w).symm
  case invalid => cases w

/-- A decoded operand is one whose bytes the stream holds, and the place after them is reported (R85, R93). -/
theorem decodeOperand_ok_iff {f : Nat → Byte} {off n : Nat} {o : Operand} :
    decodeOperand f off = .ok (o, n) ↔ StreamHas f off o.encode ∧ n = off + o.length := by
  constructor
  · intro h
    unfold decodeOperand at h
    split at h
    next => cases h
    next d _ decoded =>
      obtain ⟨w, bytes, rfl⟩ := streamHas_of_decodeDescriptor decoded
      obtain ⟨o', rfl⟩ := exists_operand_of_wellFormed w
      rw [operand_of_descriptor] at h
      cases h
      exact ⟨bytes, Nat.add_assoc off 1 _⟩
  · rintro ⟨bytes, rfl⟩
    have decoded := decodeDescriptor_of_streamHas (operand_descriptor_wellFormed o) bytes
    simp [decodeOperand, decoded, Operand.length, Nat.add_assoc]

/-- An invalid mode is answered with its ModRM byte (R87). -/
theorem decodeOperand_invalid {f : Nat → Byte} {off : Nat} (h : modeClass (modrmMode (f off)) = .invalid) :
    decodeOperand f off = .error (f off) := by
  rw [decodeOperand, decodeDescriptor_invalid h]

/-- The operand in any position decodes exactly from its own bytes. -/
theorem decodeAt_ok_iff {op : Byte} {p : OperandPos} {f : Nat → Byte} {off n : Nat} {o : Operand} :
    decodeAt op p f off = .ok (o, n) ↔ StreamHas f off o.encode ∧ n = off + o.length := by
  rw [← decodeOperand_ok_iff, decodeAt]
  split
  next decoded => rw [decoded, Except.ok.injEq, Except.ok.injEq]
  next rejected => simp [rejected]

/-- An invalid mode is reported at its position, the cursor after its ModRM byte (R87, R136). -/
theorem decodeAt_invalid {f : Nat → Byte} {off : Nat} (op : Byte) (p : OperandPos)
    (h : modeClass (modrmMode (f off)) = .invalid) :
    decodeAt op p f off = .error (.invalidMode op p (f off) (off + 1)) := by
  rw [decodeAt, decodeOperand_invalid h]

end Sys2Proof.Machine
end

section
/-! PROOFS. The instruction decoder and encoder (30_encoding.md R80, R81, R99 to R106): the opcode map and its inverse,
that an instruction is its kind and its operands, and that the decoder accepts exactly the bytes of an instruction. -/

namespace Sys2Proof.Machine

/-! ## The opcode map -/

/-- Settles O32: the mux answers a kind with that opcode byte, and by the distinct bytes of R9 no other; R100's list is
checked over the 256 bytes. -/
theorem dispatchInvertsTheOpcodeMap : Obligations.DispatchInvertsTheOpcodeMap := by
  unfold Obligations.DispatchInvertsTheOpcodeMap
  refine ⟨fun cfg op k w => ⟨opcode_of_dispatch, ?_⟩, by decide⟩
  rintro rfl
  exact dispatch_opcode w k

/-- Settles O27, by decoding each word. -/
theorem sampleWordsDecode : Obligations.SampleWordsDecode := by
  unfold Obligations.SampleWordsDecode
  exact ⟨by decide, by decide, by decide, by decide, by decide, by decide, by decide, by decide⟩

/-! ## An instruction is its kind and its operands -/

/-- The instruction that two operands of a source-destination form build. -/
theorem kind_operands_of_srcDst {k : Kind} {mk : Operand → Loc → Instr} (h : k.form = .srcDst mk) (a : Operand) (b : Loc) :
    (mk a b).kind = k ∧ (mk a b).operands = [a, .loc b] := by
  cases k <;> cases h <;> exact ⟨rfl, rfl⟩

/-- The instruction that two operands of a source-source form build. -/
theorem kind_operands_of_srcSrc {k : Kind} {mk : Operand → Operand → Instr} (h : k.form = .srcSrc mk) (a b : Operand) :
    (mk a b).kind = k ∧ (mk a b).operands = [a, b] := by
  cases k <;> cases h <;> exact ⟨rfl, rfl⟩

/-- The instruction that three operands of a source-destination-destination form build. -/
theorem kind_operands_of_srcDstDst {k : Kind} {mk : Operand → Loc → Loc → Instr} (h : k.form = .srcDstDst mk)
    (a : Operand) (b c : Loc) : (mk a b c).kind = k ∧ (mk a b c).operands = [a, .loc b, .loc c] := by
  cases k <;> cases h <;> exact ⟨rfl, rfl⟩

/-- A kind and operands build exactly the instruction with that kind and those operands. -/
theorem instr_eq_some_iff {k : Kind} {ops : List Operand} {i : Instr} :
    Kind.instr k ops = some i ↔ i.kind = k ∧ i.operands = ops := by
  constructor
  · intro h
    unfold Kind.instr at h
    split at h
    next mk a b form => cases h; exact kind_operands_of_srcDst form a b
    next mk a b form => cases h; exact kind_operands_of_srcSrc form a b
    next mk a b c form => cases h; exact kind_operands_of_srcDstDst form a b c
    next => cases h
  · rintro ⟨rfl, rfl⟩
    cases i <;> rfl

/-- A kind of the source-destination form builds an instruction from a source and a destination. -/
theorem instr_of_srcDst {k : Kind} {mk : Operand → Loc → Instr} (h : k.form = .srcDst mk) (ops : List Operand) (i : Instr) :
    Kind.instr k ops = some i ↔ ∃ a b, ops = [a, .loc b] ∧ mk a b = i := by
  constructor
  · intro built
    unfold Kind.instr at built
    split at built <;> simp_all
  · rintro ⟨a, b, rfl, rfl⟩
    simp [Kind.instr, h]

/-- A kind of the source-source form builds an instruction from two sources. -/
theorem instr_of_srcSrc {k : Kind} {mk : Operand → Operand → Instr} (h : k.form = .srcSrc mk) (ops : List Operand)
    (i : Instr) : Kind.instr k ops = some i ↔ ∃ a b, ops = [a, b] ∧ mk a b = i := by
  constructor
  · intro built
    unfold Kind.instr at built
    split at built <;> simp_all
  · rintro ⟨a, b, rfl, rfl⟩
    simp [Kind.instr, h]

/-- A kind of the source-destination-destination form builds an instruction from a source and two destinations. -/
theorem instr_of_srcDstDst {k : Kind} {mk : Operand → Loc → Loc → Instr} (h : k.form = .srcDstDst mk) (ops : List Operand)
    (i : Instr) : Kind.instr k ops = some i ↔ ∃ a b c, ops = [a, .loc b, .loc c] ∧ mk a b c = i := by
  constructor
  · intro built
    unfold Kind.instr at built
    split at built <;> simp_all
  · rintro ⟨a, b, c, rfl, rfl⟩
    simp [Kind.instr, h]

/-- An instruction has two or three operands. -/
theorem operands_length (i : Instr) : i.operands.length = 2 ∨ i.operands.length = 3 := by
  cases i <;> simp [Instr.operands]

/-! ## Lengths -/

/-- The number of bytes of a list of operands. -/
theorem flatMap_encode_length (ops : List Operand) :
    (ops.flatMap Operand.encode).length = (ops.map Operand.length).sum := by
  simp [List.length_flatMap]

/-- The number of encoded bytes is the instruction's length (R81). -/
theorem encode_length (cfg : Config) (i : Instr) : (encode cfg i).length = i.length := by
  rw [encode, List.length_cons, flatMap_encode_length, Instr.length, Nat.add_comm]

/-- Settles O31: each of the two or three operands takes 1 to 5 bytes. -/
theorem encodedLengths : Obligations.EncodedLengths := by
  unfold Obligations.EncodedLengths
  intro cfg i
  rw [encode_length]
  refine ⟨rfl, fun two => ?_, fun three => ?_, operands_length i⟩
  · obtain ⟨a, b, ops⟩ := List.length_eq_two.1 two
    have := operand_length_pos a
    have := operand_length_pos b
    simp only [Instr.length, ops, List.map_cons, List.map_nil, List.sum_cons, List.sum_nil]
    omega
  · obtain ⟨a, b, c, ops⟩ := List.length_eq_three.1 three
    have := operand_length_pos a
    have := operand_length_pos b
    have := operand_length_pos c
    simp only [Instr.length, ops, List.map_cons, List.map_nil, List.sum_cons, List.sum_nil]
    omega

/-! ## Decoding -/

/-- A computation in two steps succeeds exactly if both succeed. -/
theorem except_bind_ok_iff {ε α β : Type} {x : Except ε α} {g : α → Except ε β} {r : β} :
    (x >>= g) = .ok r ↔ ∃ v, x = .ok v ∧ g v = .ok r := by
  cases x <;> simp [bind, Except.bind]

/-- A destination is accepted exactly if it is a register or memory form (R102, R137). -/
theorem destination_ok_iff {op : Byte} {p : OperandPos} {len : Nat} {o : Operand} {l : Loc} :
    destination op p len o = .ok l ↔ o = .loc l := by
  cases o <;> simp [destination]

/-- After an opcode byte that dispatches, the decoder accepts exactly the bytes of operands that build an instruction of
that kind: in each of the three forms, the bytes of its operands one after the other. -/
theorem decode_ok_iff_instr {cfg : Config} {f : Nat → Byte} {k : Kind} {d : Decoded} (hk : dispatch cfg (f 0) = some k) :
    decode cfg f = .ok d ↔ ∃ ops, StreamHas f 1 (ops.flatMap Operand.encode) ∧ Kind.instr k ops = some d.instr ∧
      1 + (ops.map Operand.length).sum = d.length := by
  obtain ⟨i, n⟩ := d
  cases form : k.form with
  | srcDst mk =>
    simp [decode, hk, form, instr_of_srcDst form, except_bind_ok_iff, decodeAt_ok_iff, destination_ok_iff,
      streamHas_append, Nat.add_assoc, and_assoc, pure, Except.pure]
  | srcSrc mk =>
    simp [decode, hk, form, instr_of_srcSrc form, except_bind_ok_iff, decodeAt_ok_iff,
      streamHas_append, Nat.add_assoc, and_assoc, pure, Except.pure]
  | srcDstDst mk =>
    simp [decode, hk, form, instr_of_srcDstDst form, except_bind_ok_iff, decodeAt_ok_iff, destination_ok_iff,
      streamHas_append, Nat.add_assoc, and_assoc, pure, Except.pure]

/-- The decoder accepts exactly the encoding of an instruction (R104, R106). -/
theorem decode_ok_iff {cfg : Config} {f : Nat → Byte} {d : Decoded} :
    decode cfg f = .ok d ↔ dispatch cfg (f 0) = some d.instr.kind ∧
      StreamHas f 1 (d.instr.operands.flatMap Operand.encode) ∧ d.length = d.instr.length := by
  cases hk : dispatch cfg (f 0) with
  | none => simp [decode, hk]
  | some k =>
    simp only [decode_ok_iff_instr hk, instr_eq_some_iff, Option.some.injEq]
    constructor
    · rintro ⟨ops, bytes, ⟨rfl, rfl⟩, len⟩
      exact ⟨rfl, bytes, len.symm⟩
    · rintro ⟨rfl, bytes, len⟩
      exact ⟨_, bytes, ⟨rfl, rfl⟩, len.symm⟩

/-- A stream begins with an instruction's bytes exactly if it begins with the opcode byte and goes on with the operands'
bytes (R80). -/
theorem streamHas_encode_iff {cfg : Config} {i : Instr} {f : Nat → Byte} :
    StreamHas f 0 (encode cfg i) ↔ f 0 = opcode cfg i.kind ∧ StreamHas f 1 (i.operands.flatMap Operand.encode) := Iff.rfl

/-- Settles O29: where the opcode bytes are distinct, the instruction's own kind is dispatched, and its operands decode
from their bytes. -/
theorem decodeAfterEncode : Obligations.DecodeAfterEncode := by
  unfold Obligations.DecodeAfterEncode
  intro cfg i f w h
  obtain ⟨opcodeByte, operandBytes⟩ := streamHas_encode_iff.1 h
  rw [decode_ok_iff, opcodeByte]
  exact ⟨dispatch_opcode w i.kind, operandBytes, encode_length cfg i⟩

/-- Settles O30, by the inversion of the decoder and of the dispatch mux. -/
theorem decodeAcceptsOnlyEncodings : Obligations.DecodeAcceptsOnlyEncodings := by
  unfold Obligations.DecodeAcceptsOnlyEncodings
  intro cfg f d h
  obtain ⟨dispatched, operandBytes, length⟩ := decode_ok_iff.1 h
  rw [encode_length]
  exact ⟨streamHas_encode_iff.2 ⟨(opcode_of_dispatch dispatched).symm, operandBytes⟩, length⟩

/-! ## The first invalid mode -/

/-- A fault of operand a is the decoder's. -/
theorem decode_error_of_a {cfg : Config} {f : Nat → Byte} {k : Kind} {e : Reject} (hk : dispatch cfg (f 0) = some k)
    (ha : decodeAt (f 0) .a f 1 = .error e) : decode cfg f = .error e := by
  cases form : k.form <;> simp [decode, hk, form, ha, bind, Except.bind]

/-- After operand a, a fault of operand b is the decoder's. -/
theorem decode_error_of_b {cfg : Config} {f : Nat → Byte} {k : Kind} {e : Reject} {a : Operand} {n : Nat}
    (hk : dispatch cfg (f 0) = some k) (ha : decodeAt (f 0) .a f 1 = .ok (a, n))
    (hb : decodeAt (f 0) .b f n = .error e) : decode cfg f = .error e := by
  cases form : k.form <;> simp [decode, hk, form, ha, hb, bind, Except.bind]

/-- After operands a and b, a fault of operand c is the decoder's. -/
theorem decode_error_of_c {cfg : Config} {f : Nat → Byte} {k : Kind} {e : Reject} {a b : Operand} {n m : Nat}
    (hk : dispatch cfg (f 0) = some k) (three : k.arity = 3) (ha : decodeAt (f 0) .a f 1 = .ok (a, n))
    (hb : decodeAt (f 0) .b f n = .ok (b, m)) (hc : decodeAt (f 0) .c f m = .error e) : decode cfg f = .error e := by
  cases form : k.form with
  | srcDst mk => simp [Kind.arity, form] at three
  | srcSrc mk => simp [Kind.arity, form] at three
  | srcDstDst mk => simp [decode, hk, form, ha, hb, hc, bind, Except.bind]

/-- No kind has more than three operands (R99). -/
theorem arity_le (k : Kind) : k.arity ≤ 3 := by
  cases k <;> decide

/-- Settles O33, by how many operands precede the invalid mode: each of them decodes from its own bytes. -/
theorem firstInvalidModeIsReported : Obligations.FirstInvalidModeIsReported := by
  unfold Obligations.FirstInvalidModeIsReported
  intro cfg f k os p dispatched fewer position bytes invalid
  have fault := decodeAt_invalid (f 0) p invalid
  rw [flatMap_encode_length] at fault ⊢
  match os with
  | [] =>
    cases position
    exact decode_error_of_a dispatched fault
  | [a] =>
    cases position
    have aBytes : StreamHas f 1 a.encode := by simpa using bytes
    exact decode_error_of_b dispatched (decodeAt_ok_iff.2 ⟨aBytes, rfl⟩) (by simpa using fault)
  | [a, b] =>
    cases position
    have three : k.arity = 3 := Nat.le_antisymm (arity_le k) fewer
    obtain ⟨aBytes, bBytes⟩ : StreamHas f 1 a.encode ∧ StreamHas f (1 + a.length) b.encode := by
      simpa [streamHas_append] using bytes
    exact decode_error_of_c dispatched three (decodeAt_ok_iff.2 ⟨aBytes, rfl⟩) (decodeAt_ok_iff.2 ⟨bBytes, rfl⟩)
      (by simpa [Nat.add_assoc] using fault)
  | _ :: _ :: _ :: _ => cases position

end Sys2Proof.Machine
end

section
/-! PROOFS. Symbolic operands (30_encoding.md R95 to R98): the width choice and the bytes of each encodable shape. -/

namespace Sys2Proof.Machine

/-! ## Width -/

theorem operandWidth_of_byte {v : Word} (h : v.toNat ≤ 0xFF) : operandWidth v = 8 := if_pos h

theorem operandWidth_of_half {v : Word} (more : ¬ v.toNat ≤ 0xFF) (h : v.toNat ≤ 0xFFFF) : operandWidth v = 16 := by
  rw [operandWidth, if_neg more, if_pos h]

theorem operandWidth_of_word {v : Word} (more : ¬ v.toNat ≤ 0xFFFF) : operandWidth v = 32 := by
  rw [operandWidth, if_neg (by omega), if_neg more]

/-- Settles O53, by the two bounds at which the width grows. -/
theorem operandWidthIsTheSmallest : Obligations.OperandWidthIsTheSmallest := by
  unfold Obligations.OperandWidthIsTheSmallest
  intro v
  have bound := v.isLt
  simp only [List.forall_mem_cons, List.not_mem_nil, false_imp_iff, implies_true, and_true]
  by_cases byte : v.toNat ≤ 0xFF
  · rw [operandWidth_of_byte byte]
    exact ⟨by decide, by omega, by omega, by omega, by omega⟩
  by_cases half : v.toNat ≤ 0xFFFF
  · rw [operandWidth_of_half byte half]
    exact ⟨by decide, by omega, by omega, by omega, by omega⟩
  · rw [operandWidth_of_word half]
    exact ⟨by decide, by omega, by omega, by omega, by omega⟩

/-! ## Bytes of the operand forms -/

/-- The low byte of a word. -/
theorem setWidth_eq_byteOf (v : Word) : v.setWidth 8 = byteOf v 0 := by
  rw [BitVec.setWidth_eq_extractLsb' (by omega)]
  rfl

/-- The bytes of the low half of a word. -/
theorem halfBytes_setWidth (v : Word) : halfBytes (v.setWidth 16) = [byteOf v 1, byteOf v 0] := by
  simp only [halfBytes, List.cons.injEq, and_true]
  constructor <;> apply BitVec.eq_of_toNat_eq <;>
    simp only [byteOf_toNat, BitVec.extractLsb'_toNat, Nat.shiftRight_eq_div_pow, BitVec.toNat_setWidth] <;> omega

theorem encode_imm8 (r : Reg) (v : BitVec 8) :
    (Operand.imm8 r v).encode = [modrmByte r.index 0x04, v] := by
  simp [Operand.encode, Operand.descriptor, encodeModRM, trailing]

theorem encode_imm16 (r : Reg) (v : BitVec 16) :
    (Operand.imm16 r v).encode = modrmByte r.index 0x05 :: halfBytes v := by
  simp [Operand.encode, Operand.descriptor, encodeModRM, trailing]

theorem encode_imm32 (r : Reg) (v : Word) :
    (Operand.imm32 r v).encode = modrmByte r.index 0x06 :: wordBytes v := by
  simp [Operand.encode, Operand.descriptor, encodeModRM, trailing]

theorem encode_reg (r : Reg) :
    (Operand.loc (.reg r)).encode = [modrmByte r.index 0x00] := by
  simp [Operand.encode, Operand.descriptor, encodeModRM, trailing]

theorem encode_regInd (r : Reg) :
    (Operand.loc (.mem (.regInd r))).encode = [modrmByte r.index 0x10] := by
  simp [Operand.encode, Operand.descriptor, encodeModRM, trailing]

theorem encode_regDisp8 (r : Reg) (d : BitVec 8) :
    (Operand.loc (.mem (.regDisp8 r d))).encode = [modrmByte r.index 0x14, d] := by
  simp [Operand.encode, Operand.descriptor, encodeModRM, trailing]

theorem encode_regDisp16 (r : Reg) (d : BitVec 16) :
    (Operand.loc (.mem (.regDisp16 r d))).encode = modrmByte r.index 0x15 :: halfBytes d := by
  simp [Operand.encode, Operand.descriptor, encodeModRM, trailing]

theorem encode_regDisp32 (r : Reg) (d : Word) :
    (Operand.loc (.mem (.regDisp32 r d))).encode = modrmByte r.index 0x16 :: wordBytes d := by
  simp [Operand.encode, Operand.descriptor, encodeModRM, trailing]

theorem encode_regReg (r q : Reg) :
    (Operand.loc (.mem (.regReg r q))).encode = [modrmByte r.index (0x18 ||| q.index.setWidth 5)] := by
  rw [Operand.encode, Operand.descriptor, encodeModRM_of_trailing_zero (trailing_of_regReg (regReg_mode q).1)]

/-! ## Shapes -/

/-- The ModRM byte as a number (R82). -/
theorem modrmByte_toNat : ∀ (reg : BitVec 3) (mode : BitVec 5),
    (modrmByte reg mode).toNat = reg.toNat * 32 + mode.toNat := by decide

/-- The mode of a register pair as a number (R91). -/
theorem regReg_mode_toNat (q : Reg) : (0x18 ||| q.index.setWidth 5 : BitVec 5).toNat = 0x18 + q.index.toNat := by
  cases q <;> rfl

/-- A bare immediate takes the smallest of the three immediate modes, its `reg` field 0 (R95, D26). -/
theorem encode_immediateOperand (v : Word) : (immediateOperand v).encode =
    if v.toNat ≤ 0xFF then [0x04, byteOf v 0]
    else if v.toNat ≤ 0xFFFF then [0x05, byteOf v 1, byteOf v 0]
    else [0x06, byteOf v 3, byteOf v 2, byteOf v 1, byteOf v 0] := by
  unfold immediateOperand
  split_ifs with byte half
  · simp only [operandWidth_of_byte byte, encode_imm8, setWidth_eq_byteOf]
    rfl
  · simp only [operandWidth_of_half byte half, encode_imm16, halfBytes_setWidth]
    rfl
  · simp only [operandWidth_of_word half, encode_imm32]
    rfl

/-- A displacement takes the smallest of the three displacement modes (R95, R98, D27). -/
theorem encode_displacementForm (r : Reg) (d : Word) : (Operand.loc (.mem (displacementForm r d))).encode =
    if d.toNat ≤ 0xFF then [modrmByte r.index 0x14, byteOf d 0]
    else if d.toNat ≤ 0xFFFF then [modrmByte r.index 0x15, byteOf d 1, byteOf d 0]
    else [modrmByte r.index 0x16, byteOf d 3, byteOf d 2, byteOf d 1, byteOf d 0] := by
  unfold displacementForm
  split_ifs with byte half
  · simp only [operandWidth_of_byte byte, encode_regDisp8, setWidth_eq_byteOf]
  · simp only [operandWidth_of_half byte half, encode_regDisp16, halfBytes_setWidth]
  · simp only [operandWidth_of_word half, encode_regDisp32, wordBytes]

/-- A label is the 32-bit form of its address, its `reg` field 0 (R97, D26). -/
theorem encode_labelOperand (adr : Word) :
    (labelOperand adr).encode = [0x06, byteOf adr 3, byteOf adr 2, byteOf adr 1, byteOf adr 0] := by
  rw [labelOperand, encode_imm32]
  rfl

/-- A symbolic operand has no encoding exactly if it is a value or a label with a modifier (R231, D28). -/
theorem pending_none_iff (o : SymOperand) :
    o.pending = none ↔ (∀ r, o.base ≠ .register r) ∧ o.modifier ≠ .none := by
  obtain ⟨base, modifier⟩ := o
  cases base with
  | value v => cases modifier <;> simp [SymOperand.pending]
  | register r => cases modifier <;> simp [SymOperand.pending]
  | label n => cases modifier <;> simp [SymOperand.pending]

/-- Settles O54, from the bytes of the operand form that each shape stands for. -/
theorem symbolicOperandsEncodeByShape : Obligations.SymbolicOperandsEncodeByShape := by
  unfold Obligations.SymbolicOperandsEncodeByShape
  refine ⟨fun v => ⟨_, rfl, encode_immediateOperand v⟩, fun r => ⟨_, rfl, ?_⟩, fun r => ⟨_, rfl, ?_⟩,
    fun r q => ⟨_, rfl, ?_⟩, fun r d => ⟨_, rfl, encode_displacementForm r d⟩,
    fun n adr => ⟨rfl, encode_labelOperand adr⟩, pending_none_iff⟩
  · simp [encode_reg, modrmByte_toNat]
  · simp [encode_regInd, modrmByte_toNat]
  · rw [encode_regReg, List.map_singleton, modrmByte_toNat, regReg_mode_toNat, Nat.add_assoc]

end Sys2Proof.Machine
end

section
/-! PROOFS. Dispatch and the step (40_engine_dispatch.md R130 to R149): the value of an operand, the frame and the touched
bytes of execution, the decoder's ImmediateDestination, and what the step of a running machine does in each case. -/

namespace Sys2Proof.Machine

/-! ## Operands -/

/-- Settles O24: a displacement is zero-extended before the addition, which is modulo 2^32. -/
theorem effectiveAddressesModulo2Pow32 : Obligations.EffectiveAddressesModulo2Pow32 := by
  unfold Obligations.EffectiveAddressesModulo2Pow32
  intro g r q d8 d16 d32
  have ext8 : (d8.setWidth 32).toNat = d8.toNat := BitVec.toNat_setWidth_of_le (by decide)
  have ext16 : (d16.setWidth 32).toNat = d16.toNat := BitVec.toNat_setWidth_of_le (by decide)
  refine ⟨rfl, ?_, ?_, BitVec.toNat_add _ _, BitVec.toNat_add _ _⟩
  · rw [effectiveAddress, BitVec.toNat_add, ext8]
  · rw [effectiveAddress, BitVec.toNat_add, ext16]

/-- Settles O25: registers, memory words and 32-bit immediates by definition, the narrow immediates because zero
extension keeps the number. -/
theorem operandValuesByForm : Obligations.OperandValuesByForm := by
  unfold Obligations.OperandValuesByForm
  intro s r m v8 v16 v32
  exact ⟨rfl, rfl, BitVec.toNat_setWidth_of_le (by decide), BitVec.toNat_setWidth_of_le (by decide), rfl⟩

/-- A store to a register leaves the word at every address. -/
theorem valueAt_mem_store_reg (s : State) (r : Reg) (v a : Word) :
    (s.store (.reg r) v).valueAt (.mem a) = s.valueAt (.mem a) := by
  simp only [State.valueAt, State.readPlace, memRead32_value, State.store, peek_setReg]

/-! ## Execution -/

/-- The converse of `keeps_two`: an instruction whose destinations are b and c keeps everything but their places. -/
theorem keepsBut_places_of_destinations {s t : State} {i : Instr} {b c : Loc} (hd : destinations i = [b, c])
    (k : s.KeepsBut t (writesReg i) (writesByte i s.regs)) :
    s.KeepsBut t (fun r => place b s.regs = .reg r ∨ place c s.regs = .reg r)
      (fun x => (place b s.regs).Covers 4 x ∨ (place c s.regs).Covers 4 x) := by
  refine k.weaken (fun r written => ?_) fun x written => ?_
  · rw [writesReg, hd, List.mem_pair] at written
    obtain rfl | rfl := written
    · exact .inl rfl
    · exact .inr rfl
  · obtain ⟨m, isDestination, inside⟩ := written
    rw [hd, List.mem_pair] at isDestination
    obtain rfl | rfl := isDestination
    · exact .inl inside
    · exact .inr inside

/-- Settles O17: each of the three has the destinations b and c, and every instruction keeps all but its destinations. -/
theorem twoDestinationFrame : Obligations.TwoDestinationFrame := by
  unfold Obligations.TwoDestinationFrame
  intro a b c s t i three executed
  have hd : destinations i = [b, c] := by
    simp only [List.mem_cons, List.not_mem_nil, or_false] at three
    obtain rfl | rfl | rfl := three <;> rfl
  exact keepsBut_places_of_destinations hd (exec_next executed).keeps

/-- Settles O18, instruction by instruction in `exec_touched`. -/
theorem executionTouchesItsOperandsAlone : Obligations.ExecutionTouchesItsOperandsAlone := by
  unfold Obligations.ExecutionTouchesItsOperandsAlone
  intro i s t x executed
  exact exec_touched executed x

/-- INJ in terms of the old values of a and b: reading them changes neither (R143, R220). -/
theorem exec_inj (a : Operand) (b c : Loc) (s : State) :
    exec (.inj a b c) s = .next ((((s.resolve a).2.readPlace (place b s.regs)).2.store (place c s.regs)
      (s.valueAt (place b s.regs))).store (place b s.regs) (s.value a)).clearFlag := by
  rw [← valueAt_after_resolve s a (place b s.regs)]
  rfl

/-- A comparison is one of the ten. -/
theorem mem_comparisons_of_isComparison {i : Instr} (h : i.kind.isComparison = true) :
    ∃ a b, i ∈ [.llonys a b, .xtlonys a b, .xolonys a b, .xylonys a b, .clo a b, .niv a b,
      .llo a b, .xtlo a b, .xolo a b, .xylo a b] := by
  cases i with
  | llonys a b => exact ⟨a, b, by simp⟩
  | xtlonys a b => exact ⟨a, b, by simp⟩
  | xolonys a b => exact ⟨a, b, by simp⟩
  | xylonys a b => exact ⟨a, b, by simp⟩
  | clo a b => exact ⟨a, b, by simp⟩
  | niv a b => exact ⟨a, b, by simp⟩
  | llo a b => exact ⟨a, b, by simp⟩
  | xtlo a b => exact ⟨a, b, by simp⟩
  | xolo a b => exact ⟨a, b, by simp⟩
  | xylo a b => exact ⟨a, b, by simp⟩
  | _ => cases h

/-! ## Immediate destinations -/

/-- The destination check rejects an immediate with its ModRM byte (R137). -/
theorem destination_of_immediate {o : Operand} (op : Byte) (p : OperandPos) (len : Nat) (h : isImmediate o = true) :
    destination op p len o = .error (.immediateDestination op p o.modrm len) := by
  cases o with
  | loc l => cases h
  | _ => rfl

/-- What is no immediate is a register or memory form. -/
theorem exists_loc_of_not_immediate {o : Operand} (h : isImmediate o = false) : ∃ l, o = .loc l := by
  cases o with
  | loc l => exact ⟨l, rfl⟩
  | _ => cases h

/-- With both operands decoded, the decoder's verdict is that of destination b. -/
theorem decode_of_two_operands {cfg : Config} {f : Nat → Byte} {k : Kind} {mk : Operand → Loc → Instr}
    {a b : Operand} {n len : Nat} (hk : dispatch cfg (f 0) = some k) (form : k.form = .srcDst mk)
    (ha : decodeAt (f 0) .a f 1 = .ok (a, n)) (hb : decodeAt (f 0) .b f n = .ok (b, len)) :
    decode cfg f = (destination (f 0) .b len b).bind fun b => .ok ⟨mk a b, len⟩ := by
  simp [decode, hk, form, ha, hb, bind, Except.bind, pure, Except.pure]

/-- With all three operands decoded, the decoder's verdict is that of destination b, then of destination c. -/
theorem decode_of_three_operands {cfg : Config} {f : Nat → Byte} {k : Kind} {mk : Operand → Loc → Loc → Instr}
    {a b c : Operand} {n m len : Nat} (hk : dispatch cfg (f 0) = some k) (form : k.form = .srcDstDst mk)
    (ha : decodeAt (f 0) .a f 1 = .ok (a, n)) (hb : decodeAt (f 0) .b f n = .ok (b, m))
    (hc : decodeAt (f 0) .c f m = .ok (c, len)) :
    decode cfg f = (destination (f 0) .b len b).bind fun b =>
      (destination (f 0) .c len c).bind fun c => .ok ⟨mk a b c, len⟩ := by
  simp [decode, hk, form, ha, hb, hc, bind, Except.bind, pure, Except.pure]

/-- Settles O34, by the form of the kind: no kind with two sources has a destination; of two destinations, c is reported
only where b is accepted. -/
theorem immediateDestinationIsReported : Obligations.ImmediateDestinationIsReported := by
  unfold Obligations.ImmediateDestinationIsReported
  intro cfg f k os p o dispatched count bytes found
  rw [flatMap_encode_length]
  cases form : k.form with
  | srcDst mk =>
    obtain ⟨a, b, rfl⟩ := List.length_eq_two.1 (by simpa [Kind.arity, form] using count)
    obtain ⟨aBytes, bBytes⟩ : StreamHas f 1 a.encode ∧ StreamHas f (1 + a.length) b.encode := by
      simpa [streamHas_append] using bytes
    rw [decode_of_two_operands dispatched form (decodeAt_ok_iff.2 ⟨aBytes, rfl⟩) (decodeAt_ok_iff.2 ⟨bBytes, rfl⟩)]
    cases immediate : isImmediate b with
    | true =>
      obtain ⟨rfl, rfl⟩ : OperandPos.b = p ∧ b = o := by
        simpa [OperandPos.inOrder, Kind.isDestination, form, immediate] using found
      rw [destination_of_immediate _ _ _ immediate]
      simp [Except.bind, Nat.add_assoc]
    | false => simp [OperandPos.inOrder, Kind.isDestination, form, immediate] at found
  | srcSrc mk =>
    have isDestination := List.find?_some found
    simp [Kind.isDestination, form] at isDestination
  | srcDstDst mk =>
    obtain ⟨a, b, c, rfl⟩ := List.length_eq_three.1 (by simpa [Kind.arity, form] using count)
    obtain ⟨aBytes, bBytes, cBytes⟩ : StreamHas f 1 a.encode ∧ StreamHas f (1 + a.length) b.encode ∧
        StreamHas f (1 + a.length + b.length) c.encode := by
      simpa [streamHas_append, Nat.add_assoc] using bytes
    rw [decode_of_three_operands dispatched form (decodeAt_ok_iff.2 ⟨aBytes, rfl⟩) (decodeAt_ok_iff.2 ⟨bBytes, rfl⟩)
      (decodeAt_ok_iff.2 ⟨cBytes, rfl⟩)]
    cases bImmediate : isImmediate b with
    | true =>
      obtain ⟨rfl, rfl⟩ : OperandPos.b = p ∧ b = o := by
        simpa [OperandPos.inOrder, Kind.isDestination, form, bImmediate] using found
      rw [destination_of_immediate _ _ _ bImmediate]
      simp [Except.bind, Nat.add_assoc]
    | false =>
      obtain ⟨l, rfl⟩ := exists_loc_of_not_immediate bImmediate
      obtain ⟨cImmediate, rfl, rfl⟩ : isImmediate c = true ∧ OperandPos.c = p ∧ c = o := by
        simpa [OperandPos.inOrder, Kind.isDestination, form, bImmediate] using found
      rw [destination_ok_iff.2 rfl, destination_of_immediate _ _ _ cImmediate]
      simp [Except.bind, Nat.add_assoc]

/-! ## The step of a running machine -/

/-- At the return sentinel the step is the halt (R131). -/
theorem step_of_return_sentinel {s : State} (running : s.status = .running) (h : s.regs.xx = s.cfg.retSentinel) :
    step s = .next s.halt := by
  simp only [step, running, State.runStep, if_pos h]

/-- At the debug sentinel the step is the debug trap (R132). -/
theorem step_of_debug_sentinel {s : State} (running : s.status = .running) (notReturn : s.regs.xx ≠ s.cfg.retSentinel)
    (h : s.regs.xx = s.cfg.dbgSentinel) : step s = .next s.debugTrap := by
  simp only [step, running, State.runStep, if_neg notReturn, if_pos h]

/-- A rejected instruction's step fetches the bytes consumed and raises the decoder's verdict (R149). -/
theorem step_of_rejected {s : State} {e : Reject} (fetches : s.Fetches) (rejected : decode s.cfg s.stream = .error e) :
    step s = .next ((s.fetch e.fetched).raise (rejectRecord s.regs.xx e)) := by
  rw [step_of_fetches fetches, State.runInstruction, rejected]

/-- Settles O35, by the definition of an instruction's step. -/
theorem stepRunsTheDecodedInstruction : Obligations.StepRunsTheDecodedInstruction := by
  unfold Obligations.StepRunsTheDecodedInstruction
  intro s d fetches decoded
  rw [step_of_fetches fetches, State.runInstruction, decoded]

/-- Settles O39, by the two sentinels and the decoder's verdict; no instruction faults while it executes (`exec_law`). -/
theorem runningMachineAlwaysSteps : Obligations.RunningMachineAlwaysSteps := by
  unfold Obligations.RunningMachineAlwaysSteps
  intro s running
  by_cases ret : s.regs.xx = s.cfg.retSentinel
  · exact ⟨_, step_of_return_sentinel running ret⟩
  by_cases dbg : s.regs.xx = s.cfg.dbgSentinel
  · exact ⟨_, step_of_debug_sentinel running ret dbg⟩
  have fetches : s.Fetches := ⟨running, ret, dbg⟩
  cases verdict : decode s.cfg s.stream with
  | error e => exact ⟨_, step_of_rejected fetches verdict⟩
  | ok d =>
    obtain ⟨t, executed, -⟩ := exec_law d.instr (s.fetch d.length)
    exact ⟨t, (stepRunsTheDecodedInstruction s d fetches verdict).trans executed⟩

/-- Settles O42: the record's fields by the cause, the rest from what fetching changes, since raising a fault sets the
status alone. -/
theorem faultingStepOnlyFetches : Obligations.FaultingStepOnlyFetches := by
  unfold Obligations.FaultingStepOnlyFetches
  intro s e fetches rejected
  have regs : ((s.fetch e.fetched).raise (rejectRecord s.regs.xx e)).regs =
      { s.regs with xx := s.regs.xx + BitVec.ofNat 32 e.fetched } := by
    rw [raise_regs, fetch_regs, Regs.set]
  refine ⟨_, e.fetched, _, step_of_rejected fetches rejected, raise_status _ _, ?_, regs, by simp, by simp, by simp,
    fun x => by simp, fun x => by rw [touched_raise, touched_fetch]⟩
  rw [regs]
  cases e with
  | unknownOpcode op => exact ⟨rfl, rfl, rfl, rfl⟩
  | invalidMode op p m len => exact ⟨rfl, rfl, rfl, rfl, rfl, rfl, rfl⟩
  | immediateDestination op p m len => exact ⟨rfl, rfl, rfl, rfl, rfl, rfl, rfl⟩

/-- The first byte of the stream is the one at XX. -/
theorem stream_zero (s : State) : s.stream 0 = s.peek s.regs.xx := by
  rw [State.stream, BitVec.add_zero]

/-- Settles O41: the decoder rejects the opcode byte, which is the one byte fetched. -/
theorem unknownOpcodeAborts : Obligations.UnknownOpcodeAborts := by
  unfold Obligations.UnknownOpcodeAborts
  intro s fetches unrecognized
  have rejected : decode s.cfg s.stream = .error (.unknownOpcode (s.peek s.regs.xx)) := by
    rw [decode, stream_zero, unrecognized]
  refine ⟨_, step_of_rejected fetches rejected, rfl, by simp [Reject.fetched, Regs.set], fun x => ?_⟩
  rw [touched_raise, touched_fetch, Reject.fetched, inSpan_succ]
  simp only [inSpan_zero, or_false]

/-- Settles O43: a fault leaves no running machine, and only a comparison leaves the flag true. -/
theorem flagIsLiveForOneInstruction : Obligations.FlagIsLiveForOneInstruction := by
  unfold Obligations.FlagIsLiveForOneInstruction
  intro s t fetches stepped running flag
  obtain ⟨e, rfl⟩ | ⟨d, decoded, law⟩ := step_next_of_fetches fetches stepped
  · rw [raise_status] at running
    cases running
  · obtain ⟨a, b, comparison⟩ := mem_comparisons_of_isComparison (law.flag flag)
    exact ⟨d, a, b, decoded, comparison⟩

/-! ## The call idiom -/

/-- INJ through XX, in any state: XX takes the value of a, the word at c's effective address the old XX, and nothing else
changes that the frame of INJ does not name (R145, R220). -/
theorem exec_inj_through_xx (a : Operand) (m : MemForm) (s : State) :
    ∃ t, exec (.inj a (.reg .XX) (.mem m)) s = .next t ∧ t.regs.xx = s.value a ∧
      (t.memRead32 (effectiveAddress m s.regs)).1 = s.regs.xx ∧ t.flag = false ∧ t.status = s.status ∧
      ∀ r, r ≠ .XX → t.regs.get r = s.regs.get r := by
  have executed := exec_inj a (.reg .XX) (.mem m) s
  have frame := twoDestinationFrame a (.reg .XX) (.mem m) s _ _ (by simp) executed
  refine ⟨_, executed, ?_, ?_, rfl, frame.status, fun r notXX => frame.registers r ?_⟩
  · rw [clearFlag_regs, ← Regs.get_XX]
    exact Regs.get_set_same _ .XX _
  · change State.valueAt _ (place (.mem m) s.regs) = _
    rw [valueAt_clearFlag]
    exact (valueAt_mem_store_reg _ _ _ _).trans (valueAt_store _ _ _)
  · rintro (written | written)
    · exact notXX (Place.reg.inj written).symm
    · cases written

/-- Settles O44: at the end of decode XX is the address of the next instruction, which is what INJ stores at F5. -/
theorem injThroughXxCalls : Obligations.InjThroughXxCalls := by
  unfold Obligations.InjThroughXxCalls
  intro s a n fetches decoded
  obtain ⟨t, executed, target, returnAddress, flag, status, registers⟩ :=
    exec_inj_through_xx a (.regInd .F5) (s.fetch n)
  have fetched := fetch_keeps s n
  have f5 : effectiveAddress (.regInd .F5) (s.fetch n).regs = s.regs.f5 := fetched.registers .F5 (by decide)
  rw [f5, fetch_regs, ← Regs.get_XX, Regs.get_set_same] at returnAddress
  refine ⟨t, (stepRunsTheDecodedInstruction s _ fetches decoded).trans executed, target, returnAddress,
    status.trans (fetched.status.trans fetches.running), flag, fun r notXX => ?_⟩
  rw [registers r notXX, fetched.registers r notXX]

end Sys2Proof.Machine
end

section
/-! PROOFS. Arithmetic, logic and shifts (41_alu.md R160 to R168): the rule of a two-operand instruction from the function
of its meaning, and the three shifts in arithmetic terms. -/

namespace Sys2Proof.Machine

/-! ## The rule of a meaning that is `State.binary` -/

/-- The opcode byte, then a, then b (R80, R241). -/
theorem encode_of_two_operands {i : Instr} {a b : Operand} (cfg : Config) (h : i.operands = [a, b]) :
    encode cfg i = opcode cfg i.kind :: (a.encode ++ b.encode) := by
  simp only [encode, h, List.flatMap_cons, List.flatMap_nil, List.append_nil]

/-- An instruction that reads a and b and writes `f vb va` to b has every rule whose result `f` meets. -/
theorem binaryRule_of_exec {op : Byte} {mk : Operand → Loc → Instr} {f : Word → Word → Word}
    {result : Word → Word → Word → Prop}
    (bytes : ∀ a b, (mk a b).operands = [a, .loc b] ∧ ∀ cfg, opcode cfg (mk a b).kind = op)
    (meaning : ∀ a b s, exec (mk a b) s = .next (s.binary f a b))
    (meets : ∀ va vb, result va vb (f vb va)) : BinaryRule op mk result := by
  intro a b s
  obtain ⟨operands, opcodeByte⟩ := bytes a b
  refine ⟨fun cfg => ?_, s.binary f a b, meaning a b s, binary_flag s f a b, ?_⟩
  · rw [encode_of_two_operands cfg operands, opcodeByte]
  · rw [binary_valueAt]
    exact meets _ _

/-! ## Arithmetic -/

/-- The difference modulo 2^32, as integers: a negative difference wraps (R161). -/
theorem toNat_sub_eq_emod (x y : Word) : ((x - y).toNat : Int) = ((x.toNat : Int) - y.toNat) % 2 ^ 32 := by
  rw [BitVec.toNat_sub]
  omega

/-- Settles O1: the machine's addition and subtraction are those of 32-bit words. -/
theorem ataAddsAndNtaSubtractsModulo2Pow32 : Obligations.AtaAddsAndNtaSubtractsModulo2Pow32 := by
  unfold Obligations.AtaAddsAndNtaSubtractsModulo2Pow32
  constructor
  · exact binaryRule_of_exec (fun _ _ => ⟨rfl, fun _ => rfl⟩) (fun _ _ _ => rfl) fun va vb => BitVec.toNat_add vb va
  · exact binaryRule_of_exec (fun _ _ => ⟨rfl, fun _ => rfl⟩) (fun _ _ _ => rfl) fun va vb => toNat_sub_eq_emod vb va

/-! ## Logic -/

/-- The exclusive nor, bit by bit: a bit is set when the two bits are equal (R167). -/
theorem getLsbD_xnor (x y : Word) {i : Nat} (hi : i < 32) :
    (~~~(x ^^^ y)).getLsbD i = (x.getLsbD i == y.getLsbD i) := by
  rw [BitVec.getLsbD_not, BitVec.getLsbD_xor, decide_eq_true hi, Bool.true_and]
  exact Bool.not_not _

/-- Settles O2: each of the three word operations acts on every bit alone. -/
theorem adaEkcDalActBitByBit : Obligations.AdaEkcDalActBitByBit := by
  unfold Obligations.AdaEkcDalActBitByBit
  refine ⟨?_, ?_, ?_⟩
  · exact binaryRule_of_exec (fun _ _ => ⟨rfl, fun _ => rfl⟩) (fun _ _ _ => rfl) fun _ _ _ _ => BitVec.getLsbD_and
  · exact binaryRule_of_exec (fun _ _ => ⟨rfl, fun _ => rfl⟩) (fun _ _ _ => rfl) fun _ _ _ _ => BitVec.getLsbD_or
  · exact binaryRule_of_exec (fun _ _ => ⟨rfl, fun _ => rfl⟩) (fun _ _ _ => rfl) fun va vb _ hi => getLsbD_xnor vb va hi

/-! ## Shifts

An amount of 32 or more is a case of its own in the model (R168). It is no exception: an unbounded shift of a 32-bit word
gives the same, so each of the three is the library's shift by the whole amount. -/

theorem shiftRightLogical_eq (vb va : Word) : shiftRightLogical vb va = vb >>> va.toNat := by
  unfold shiftRightLogical
  split
  · exact (BitVec.ushiftRight_eq_zero ‹_›).symm
  · rfl

theorem shiftLeft_eq (vb va : Word) : shiftLeft vb va = vb <<< va.toNat := by
  unfold shiftLeft
  split
  · exact (BitVec.shiftLeft_eq_zero ‹_›).symm
  · rfl

/-- An arithmetic shift right by 32 or more leaves copies of the sign bit alone. -/
theorem sshiftRight_of_le (v : Word) {n : Nat} (h : 32 ≤ n) :
    v.sshiftRight n = if v.msb then 0xFFFFFFFF else 0 := by
  cases sign : v.msb with
  | false => rw [BitVec.sshiftRight_eq_of_msb_false sign, BitVec.ushiftRight_eq_zero h]; rfl
  | true => rw [BitVec.sshiftRight_eq_of_msb_true sign, BitVec.ushiftRight_eq_zero h]; rfl

theorem shiftRightArithmetic_eq (vb va : Word) : shiftRightArithmetic vb va = vb.sshiftRight va.toNat := by
  unfold shiftRightArithmetic
  split
  · exact (sshiftRight_of_le vb ‹_›).symm
  · rfl

/-- The quotient by 2^a (R164). -/
theorem shiftRightLogical_toNat (vb va : Word) : (shiftRightLogical vb va).toNat = vb.toNat / 2 ^ va.toNat := by
  rw [shiftRightLogical_eq, BitVec.toNat_ushiftRight, Nat.shiftRight_eq_div_pow]

/-- The product with 2^a modulo 2^32 (R165). -/
theorem shiftLeft_toNat (vb va : Word) : (shiftLeft vb va).toNat = vb.toNat * 2 ^ va.toNat % 2 ^ 32 := by
  rw [shiftLeft_eq, BitVec.toNat_shiftLeft, Nat.shiftLeft_eq]

/-- The signed quotient by 2^a, rounded down (R166). -/
theorem shiftRightArithmetic_toInt (vb va : Word) :
    (shiftRightArithmetic vb va).toInt = vb.toInt / 2 ^ va.toNat := by
  rw [shiftRightArithmetic_eq, BitVec.toInt_sshiftRight, Int.shiftRight_eq_div_pow]
  norm_cast

/-- Settles O3: the logical shifts by the whole amount, and the model's own case for 32 and more. -/
theorem dtoAndDroShiftByTheWholeAmount : Obligations.DtoAndDroShiftByTheWholeAmount := by
  unfold Obligations.DtoAndDroShiftByTheWholeAmount
  constructor
  · exact binaryRule_of_exec (fun _ _ => ⟨rfl, fun _ => rfl⟩) (fun _ _ _ => rfl) fun va vb =>
      ⟨shiftRightLogical_toNat vb va, fun large => if_pos large⟩
  · exact binaryRule_of_exec (fun _ _ => ⟨rfl, fun _ => rfl⟩) (fun _ _ _ => rfl) fun va vb =>
      ⟨shiftLeft_toNat vb va, fun large => if_pos large⟩

/-- Settles O4: the arithmetic shift by the whole amount; the sign bit is set exactly when b is negative. -/
theorem dtosnaShiftsTheSignIn : Obligations.DtosnaShiftsTheSignIn := by
  unfold Obligations.DtosnaShiftsTheSignIn
  refine binaryRule_of_exec (fun _ _ => ⟨rfl, fun _ => rfl⟩) (fun _ _ _ => rfl) fun va vb =>
    ⟨shiftRightArithmetic_toInt vb va, fun large => ?_⟩
  rw [shiftRightArithmetic_eq, sshiftRight_of_le vb large, BitVec.msb_eq_toInt]
  simp only [decide_eq_true_eq]

end Sys2Proof.Machine
end

section
/-! PROOFS. Moves (42_move.md R180 to R185): the result of a copy from its meaning, the two sign extensions, MALKRZ's two
cases, the narrow writes of KRZ8C and KRZ16C, and the frame of one destination. -/

namespace Sys2Proof.Machine

/-! ## Copies -/

/-- What is common to the instructions whose meaning is a copy: the flag and the value of the destination. -/
theorem exec_copy_result {i : Instr} {f : Word → Word} {a : Operand} {b : Loc} {s : State}
    (meaning : exec i s = .next (s.copy f a b)) :
    ∃ t, exec i s = .next t ∧ t.flag = false ∧ t.valueAt (place b s.regs) = f (s.value a) :=
  ⟨s.copy f a b, meaning, copy_flag s f a b, copy_valueAt s f a b⟩

/-- Settles O5: KRZ is the copy of the value itself. -/
theorem krzCopiesItsSource : Obligations.KrzCopiesItsSource := by
  unfold Obligations.KrzCopiesItsSource
  intro a b s
  exact ⟨fun cfg => encode_of_two_operands cfg rfl, s.copy (fun va => va) a b, rfl, copy_flag s _ a b,
    copy_valueAt s _ a b, copy_touched s _ a b⟩

/-- The signed value of a sign-extended field of a word is that of the field itself. -/
theorem toInt_signExtend_extractLsb' (v : Word) (start : Nat) {len : Nat} (h : len ≤ 32) :
    ((v.extractLsb' start len).signExtend 32).toInt = (BitVec.ofNat len (v.toNat / 2 ^ start)).toInt := by
  rw [BitVec.toInt_signExtend_of_le h, BitVec.extractLsb', Nat.shiftRight_eq_div_pow]

/-- A copy of a sign-extended field of a leaves b with the field's signed value. -/
theorem exec_copy_field_result {i : Instr} {a : Operand} {b : Loc} {s : State} (start : Nat) {len : Nat} (h : len ≤ 32)
    (meaning : exec i s = .next (s.copy (fun va => (va.extractLsb' start len).signExtend 32) a b)) :
    ∃ t, exec i s = .next t ∧ t.flag = false ∧
      (t.valueAt (place b s.regs)).toInt = (BitVec.ofNat len ((s.value a).toNat / 2 ^ start)).toInt := by
  obtain ⟨t, executed, flag, value⟩ := exec_copy_result meaning
  exact ⟨t, executed, flag, by rw [value, toInt_signExtend_extractLsb' _ start h]⟩

/-- Settles O7: KRZ8I copies the field from bit 24 on, KRZ16I the one from bit 16 on. -/
theorem krz8iAndKrz16iExtendTheTopPart : Obligations.Krz8iAndKrz16iExtendTheTopPart := by
  unfold Obligations.Krz8iAndKrz16iExtendTheTopPart
  intro a b s
  exact ⟨fun cfg => encode_of_two_operands cfg rfl, fun cfg => encode_of_two_operands cfg rfl,
    exec_copy_field_result 24 (by decide) rfl, exec_copy_field_result 16 (by decide) rfl⟩

/-! ## The conditional copy -/

/-- With the flag true MALKRZ is the copy. -/
theorem exec_malkrz_of_flag_true {s : State} (a : Operand) (b : Loc) (h : s.flag = true) :
    exec (.malkrz a b) s = .next (s.copy (fun va => va) a b) := by
  simp only [exec, execMalkrz, if_pos h]

/-- Clearing a flag that is false changes nothing. -/
theorem clearFlag_of_flag_false {s : State} (h : s.flag = false) : s.clearFlag = s := by
  rw [State.clearFlag, State.setFlag, ← h]

/-- With the flag false MALKRZ leaves the state as it is. -/
theorem exec_malkrz_of_flag_false {s : State} (a : Operand) (b : Loc) (h : s.flag = false) :
    exec (.malkrz a b) s = .next s := by
  simp only [exec, execMalkrz, h, Bool.false_eq_true, if_false, clearFlag_of_flag_false h]

/-- Settles O6, by the flag. -/
theorem malkrzCopiesOnlyWhenTheFlagIsTrue : Obligations.MalkrzCopiesOnlyWhenTheFlagIsTrue := by
  unfold Obligations.MalkrzCopiesOnlyWhenTheFlagIsTrue
  intro a b s
  exact ⟨fun cfg => encode_of_two_operands cfg rfl, exec_malkrz_of_flag_false a b,
    fun flag => exec_copy_result (exec_malkrz_of_flag_true a b flag)⟩

/-! ## The narrow writes -/

/-- The low part of a word as a number. -/
theorem extractLsb'_zero_toNat (v : Word) (n : Nat) : (v.extractLsb' 0 n).toNat = v.toNat % 2 ^ n := by
  rw [BitVec.extractLsb'_toNat, Nat.shiftRight_zero]

/-- The number of a top part `v` put before the low part of a word. -/
theorem toNat_append_low {n k : Nat} (v : BitVec n) (w : Word) :
    (v ++ w.extractLsb' 0 k).toNat = v.toNat * 2 ^ k + w.toNat % 2 ^ k := by
  rw [BitVec.toNat_append, ← Nat.shiftLeft_add_eq_or_of_lt (BitVec.isLt _), Nat.shiftLeft_eq, extractLsb'_zero_toNat]

/-- A register after the write of KRZ8C: the new top byte above the low 24 bits it had. -/
theorem storeTop8_reg_toNat (s : State) (r : Reg) (v : Byte) :
    ((s.storeTop8 (.reg r) v).regs.get r).toNat = v.toNat * 2 ^ 24 + (s.regs.get r).toNat % 2 ^ 24 := by
  rw [State.storeTop8, setReg_regs, Regs.get_set_same]
  exact toNat_append_low v _

/-- A register after the write of KRZ16C: the new top half-word above the low 16 bits it had. -/
theorem storeTop16_reg_toNat (s : State) (r : Reg) (v : BitVec 16) :
    ((s.storeTop16 (.reg r) v).regs.get r).toNat = v.toNat * 2 ^ 16 + (s.regs.get r).toNat % 2 ^ 16 := by
  rw [State.storeTop16, setReg_regs, Regs.get_set_same]
  exact toNat_append_low v _

/-- KRZ8C in terms of the old value of a. -/
theorem exec_krz8c (a : Operand) (b : Loc) (s : State) : exec (.krz8c a b) s =
    .next ((s.resolve a).2.storeTop8 (place b s.regs) ((s.value a).extractLsb' 0 8)).clearFlag := rfl

/-- KRZ16C in terms of the old value of a. -/
theorem exec_krz16c (a : Operand) (b : Loc) (s : State) : exec (.krz16c a b) s =
    .next ((s.resolve a).2.storeTop16 (place b s.regs) ((s.value a).extractLsb' 0 16)).clearFlag := rfl

/-- The two bytes of a stored low half-word are the word's own low bytes. -/
theorem peek_memWrite16_low_half (s : State) (x v : Word) :
    (s.memWrite16 x (v.extractLsb' 0 16)).peek x = byteOf v 1 ∧
      (s.memWrite16 x (v.extractLsb' 0 16)).peek (x + 1) = byteOf v 0 := by
  obtain ⟨top, bottom⟩ := peek_memWrite16 s x (v.extractLsb' 0 16)
  rw [BitVec.extractLsb'_extractLsb'_of_le (by decide)] at top bottom
  exact ⟨top, bottom⟩

/-- Settles O8, by the kind of the destination: the register's two parts, or the bytes written. -/
theorem krz8cAndKrz16cReplaceTheTopPart : Obligations.Krz8cAndKrz16cReplaceTheTopPart := by
  unfold Obligations.Krz8cAndKrz16cReplaceTheTopPart
  intro a s
  refine ⟨fun _ cfg => encode_of_two_operands cfg rfl, fun _ cfg => encode_of_two_operands cfg rfl,
    fun r => ⟨_, exec_krz8c a _ s, rfl, ?_⟩, fun r => ⟨_, exec_krz16c a _ s, rfl, ?_⟩,
    fun m => ⟨_, exec_krz8c a _ s, rfl, ?_⟩, fun m => ⟨_, exec_krz16c a _ s, rfl, ?_⟩⟩
  · rw [clearFlag_regs, place, storeTop8_reg_toNat, extractLsb'_zero_toNat, resolve_regs]
  · rw [clearFlag_regs, place, storeTop16_reg_toNat, extractLsb'_zero_toNat, resolve_regs]
  · rw [peek_clearFlag]
    exact peek_writeByte_same _ _ _
  · rw [peek_clearFlag, peek_clearFlag]
    exact peek_memWrite16_low_half _ _ _

/-! ## Frames -/

/-- The converse of `keeps_one` for a word: an instruction whose one destination is b keeps everything but its place. -/
theorem keepsBut_place_of_destination {s t : State} {i : Instr} {b : Loc} (hd : destinations i = [b])
    (k : s.KeepsBut t (writesReg i) (writesByte i s.regs)) :
    s.KeepsBut t (fun r => place b s.regs = .reg r) ((place b s.regs).Covers 4) := by
  refine k.weaken (fun r written => ?_) fun x ⟨m, isDestination, inside⟩ => ?_
  · rw [writesReg, hd, List.mem_singleton] at written
    rw [← written, place]
  · rw [hd, List.mem_singleton] at isDestination
    rw [← isDestination]
    exact inside

/-- Settles O15: b is the one destination of each of the twelve, and every instruction keeps all but its destinations. -/
theorem wordDestinationFrame : Obligations.WordDestinationFrame := by
  unfold Obligations.WordDestinationFrame
  intro a b s t i twelve executed
  have hd : destinations i = [b] := by fin_cases twelve <;> rfl
  exact keepsBut_place_of_destination hd (exec_next executed).keeps

/-- Reading a before a write and clearing the flag after it add nothing to what the write changes. -/
theorem keepsBut_of_resolve_clearFlag {s t : State} {a : Operand} {R : Reg → Prop} {B : Word → Prop}
    (write : (s.resolve a).2.KeepsBut t R B) : s.KeepsBut t.clearFlag R B :=
  (((resolve_keeps s a).trans write).trans (setFlag_keeps t false)).weaken (fun r h => by tauto) (fun x h => by tauto)

/-- Settles O16: the frame of each narrow write, which is the one change of its instruction but the flag. -/
theorem narrowDestinationFrame : Obligations.NarrowDestinationFrame := by
  unfold Obligations.NarrowDestinationFrame
  intro a b s t
  refine ⟨fun executed => ?_, fun executed => ?_⟩
  · cases (exec_krz8c a b s).symm.trans executed
    exact keepsBut_of_resolve_clearFlag (storeTop8_keeps _ _ _)
  · cases (exec_krz16c a b s).symm.trans executed
    exact keepsBut_of_resolve_clearFlag (storeTop16_keeps _ _ _)

end Sys2Proof.Machine
end

section
/-! PROOFS. Comparisons (43_compare.md R200 to R210): the rule of a comparison from the relation that its meaning decides. -/

namespace Sys2Proof.Machine

/-- An instruction that reads a and b and leaves the decision of a relation in the flag has the relation's rule. -/
theorem comparisonRule_of_exec {op : Byte} {mk : Operand → Operand → Instr} {relation : Word → Word → Prop}
    [∀ va vb, Decidable (relation va vb)]
    (bytes : ∀ a b, (mk a b).operands = [a, b] ∧ ∀ cfg, opcode cfg (mk a b).kind = op)
    (meaning : ∀ a b s, exec (mk a b) s = .next (s.compare (fun va vb => decide (relation va vb)) a b)) :
    ComparisonRule op mk relation := by
  intro a b s
  obtain ⟨operands, opcodeByte⟩ := bytes a b
  refine ⟨fun cfg => ?_, _, meaning a b s, ?_, compare_keeps s _ a b⟩
  · rw [encode_of_two_operands cfg operands, opcodeByte]
  · rw [compare_flag, decide_eq_true_iff]

/-- Settles O9: the model decides the four orders of the two values as natural numbers, a on the left (D9). -/
theorem unsignedComparisonsSetTheFlag : Obligations.UnsignedComparisonsSetTheFlag := by
  unfold Obligations.UnsignedComparisonsSetTheFlag
  refine ⟨?_, ?_, ?_, ?_⟩
  · exact comparisonRule_of_exec (fun _ _ => ⟨rfl, fun _ => rfl⟩) fun _ _ _ => rfl
  · exact comparisonRule_of_exec (fun _ _ => ⟨rfl, fun _ => rfl⟩) fun _ _ _ => rfl
  · exact comparisonRule_of_exec (fun _ _ => ⟨rfl, fun _ => rfl⟩) fun _ _ _ => rfl
  · exact comparisonRule_of_exec (fun _ _ => ⟨rfl, fun _ => rfl⟩) fun _ _ _ => rfl

/-- Settles O10: the model decides equality and inequality of the two words. -/
theorem cloAndNivCompareThePatterns : Obligations.CloAndNivCompareThePatterns := by
  unfold Obligations.CloAndNivCompareThePatterns
  constructor
  · exact comparisonRule_of_exec (fun _ _ => ⟨rfl, fun _ => rfl⟩) fun _ _ _ => rfl
  · exact comparisonRule_of_exec (fun _ _ => ⟨rfl, fun _ => rfl⟩) fun _ _ _ => rfl

/-- Settles O11: the model decides the four orders of the two values as integers, a on the left (D9). -/
theorem signedComparisonsSetTheFlag : Obligations.SignedComparisonsSetTheFlag := by
  unfold Obligations.SignedComparisonsSetTheFlag
  refine ⟨?_, ?_, ?_, ?_⟩
  · exact comparisonRule_of_exec (fun _ _ => ⟨rfl, fun _ => rfl⟩) fun _ _ _ => rfl
  · exact comparisonRule_of_exec (fun _ _ => ⟨rfl, fun _ => rfl⟩) fun _ _ _ => rfl
  · exact comparisonRule_of_exec (fun _ _ => ⟨rfl, fun _ => rfl⟩) fun _ _ _ => rfl
  · exact comparisonRule_of_exec (fun _ _ => ⟨rfl, fun _ => rfl⟩) fun _ _ _ => rfl

end Sys2Proof.Machine
end

section
/-! PROOFS. Three operands (44_three_operand.md R220 to R223): the exchange of INJ, and the two words of the exact product
of LAT and LATSNA. -/

namespace Sys2Proof.Machine

/-- The opcode byte, then a, b and c (R80, R241). -/
theorem encode_of_three_operands {i : Instr} {a b c : Operand} (cfg : Config) (h : i.operands = [a, b, c]) :
    encode cfg i = opcode cfg i.kind :: (a.encode ++ b.encode ++ c.encode) := by
  simp only [encode, h, List.flatMap_cons, List.flatMap_nil, List.append_nil, List.append_assoc]

/-! ## The exchange -/

/-- Settles O12: INJ stores b's old value to c and then a's to b, so b's place wins what the two share (D12). -/
theorem injExchangesThroughThreeOperands : Obligations.InjExchangesThroughThreeOperands := by
  unfold Obligations.InjExchangesThroughThreeOperands
  intro a b c s
  refine ⟨fun cfg => encode_of_three_operands cfg rfl, _, exec_inj a b c s, clearFlag_flag _, ?_⟩
  obtain ⟨second, first⟩ := store_store ((s.resolve a).2.readPlace (place b s.regs)).2 (place c s.regs)
    (place b s.regs) (s.valueAt (place b s.regs)) (s.value a)
  exact ⟨(valueAt_clearFlag _ _).trans second, first.clearFlag⟩

/-! ## The two words of a 64-bit product -/

/-- A word of a 64-bit vector, from the vector's unsigned value. -/
theorem extractLsb'_eq_ofNat (p : BitVec 64) (start : Nat) :
    p.extractLsb' start 32 = BitVec.ofNat 32 (p.toNat / 2 ^ start) := by
  rw [BitVec.extractLsb', Nat.shiftRight_eq_div_pow]

/-- A word of a 64-bit vector, from the vector's signed value: the word lies inside the 64 bits, so the copies of the sign
that an arithmetic shift brings in stay above it. -/
theorem extractLsb'_eq_ofInt (p : BitVec 64) {start : Nat} (h : start ≤ 32) :
    p.extractLsb' start 32 = BitVec.ofInt 32 (p.toInt / 2 ^ start) := by
  have shifted : p.toInt / 2 ^ start = (p.sshiftRight start).toInt := by
    rw [BitVec.toInt_sshiftRight, Int.shiftRight_eq_div_pow]
    norm_cast
  rw [shifted, ← BitVec.signExtend, BitVec.signExtend_eq_setWidth_of_le _ (by decide)]
  ext i hi
  have inside : start + i < 64 := by omega
  have inField : ¬ 64 ≤ i := by omega
  simp only [BitVec.getElem_extractLsb', BitVec.getElem_setWidth, BitVec.getLsbD_sshiftRight, if_pos inside,
    decide_eq_false inField, Bool.not_false, Bool.true_and]

/-! ## The products are exact

The product of two 32-bit values, unsigned or signed, fits in 64 bits, so the machine's product loses nothing (R223). -/

theorem unsignedProduct_toNat (vb va : Word) : (unsignedProduct vb va).toNat = vb.toNat * va.toNat := by
  have fits : vb.toNat * va.toNat < 2 ^ 64 := by
    calc vb.toNat * va.toNat < 2 ^ 32 * 2 ^ 32 := Nat.mul_lt_mul'' vb.isLt va.isLt
      _ = 2 ^ 64 := by norm_num
  rw [unsignedProduct, BitVec.toNat_mul, BitVec.toNat_setWidth_of_le (by decide),
    BitVec.toNat_setWidth_of_le (by decide), Nat.mod_eq_of_lt fits]

theorem signedProduct_toInt (vb va : Word) : (signedProduct vb va).toInt = vb.toInt * va.toInt := by
  have fits : |vb.toInt * va.toInt| ≤ 2 ^ 31 * 2 ^ 31 := by
    rw [abs_mul]
    exact mul_le_mul (abs_le.2 ⟨vb.le_toInt, vb.toInt_lt.le⟩) (abs_le.2 ⟨va.le_toInt, va.toInt_lt.le⟩)
      (abs_nonneg _) (by norm_num)
  obtain ⟨lower, upper⟩ := abs_le.1 fits
  rw [signedProduct, BitVec.toInt_mul, BitVec.toInt_signExtend_of_le (by decide),
    BitVec.toInt_signExtend_of_le (by decide)]
  exact Int.bmod_eq_of_le (by omega) (by omega)

/-! ## The multiplies -/

/-- What is common to the instructions whose meaning is a multiply: the flag, the high word in c and, where c does not
overwrite it (D12), the low word in b. -/
theorem exec_multiply_result {i : Instr} {f : Word → Word → BitVec 64} {a : Operand} {b c : Loc} {s : State}
    {low high : Word} (meaning : exec i s = .next (s.multiply f a b c))
    (hlow : (f (s.valueAt (place b s.regs)) (s.value a)).extractLsb' 0 32 = low)
    (hhigh : (f (s.valueAt (place b s.regs)) (s.value a)).extractLsb' 32 32 = high) :
    ∃ t, exec i s = .next t ∧ t.flag = false ∧ t.valueAt (place c s.regs) = high ∧
      t.HoldsBut (place b s.regs) low (place c s.regs) := by
  subst hlow hhigh
  exact ⟨s.multiply f a b c, meaning, multiply_flag s f a b c, multiply_result s f a b c⟩

/-- Settles O13: the two words of LAT's product, which is the exact unsigned one. -/
theorem latWritesTheUnsignedProduct : Obligations.LatWritesTheUnsignedProduct := by
  unfold Obligations.LatWritesTheUnsignedProduct
  intro a b c s
  refine ⟨fun cfg => encode_of_three_operands cfg rfl, exec_multiply_result (f := unsignedProduct) rfl ?_ ?_⟩
  · rw [extractLsb'_eq_ofNat, unsignedProduct_toNat, pow_zero, Nat.div_one]
  · rw [extractLsb'_eq_ofNat, unsignedProduct_toNat]

/-- Settles O14: the two words of LATSNA's product, which is the exact signed one. -/
theorem latsnaWritesTheSignedProduct : Obligations.LatsnaWritesTheSignedProduct := by
  unfold Obligations.LatsnaWritesTheSignedProduct
  intro a b c s
  refine ⟨fun cfg => encode_of_three_operands cfg rfl, exec_multiply_result (f := signedProduct) rfl ?_ ?_⟩
  · rw [extractLsb'_eq_ofInt _ (by decide), signedProduct_toInt, pow_zero, Int.ediv_one]
  · rw [extractLsb'_eq_ofInt _ (by decide), signedProduct_toInt]

end Sys2Proof.Machine
end

section
/-! PROOFS. The assembler (48_assembler.md R230 to R244): what a label binds, what an IR-building call accepts, that every
entry of a finished build was built by such a call, and what emission makes of the entries. -/

namespace Sys2Proof.Machine

/-! ## Labels -/

/-- A binding appended to the table answers for its own name where the table has none (R236). -/
theorem labelAddress_append_singleton (labels : List (LabelName × Word)) (n m : LabelName) (a : Word) :
    labelAddress (labels ++ [(n, a)]) m = (labelAddress labels m).or (if n = m then some a else none) := by
  induction labels with
  | nil => simp [labelAddress]
  | cons entry rest ih =>
    obtain ⟨name, address⟩ := entry
    by_cases h : name = m <;> simp [labelAddress, h, ih]

/-- Binding a new name gives it its address and changes nothing else (R236). -/
theorem bind_of_new {s : Assembly} {n : LabelName} (new : labelAddress s.labels n = none) (cfg : Config)
    (item offset : Nat) : ∃ s', s.bind cfg item n offset = .ok s' ∧
      labelAddress s'.labels n = some (cfg.loadBase + BitVec.ofNat 32 offset) ∧
      (∀ m, m ≠ n → labelAddress s'.labels m = labelAddress s.labels m) ∧ s'.ir = s.ir ∧ s'.len = s.len := by
  refine ⟨{ s with labels := s.labels ++ [(n, cfg.loadBase + BitVec.ofNat 32 offset)] }, ?_, ?_, fun m other => ?_, rfl, rfl⟩
  · rw [Assembly.bind, new]
  · simp [labelAddress_append_singleton, new]
  · simp [labelAddress_append_singleton, other.symm]

/-- A name is bound only once (R239). -/
theorem bind_of_bound {s : Assembly} {n : LabelName} (bound : labelAddress s.labels n ≠ none) (cfg : Config)
    (item offset : Nat) : s.bind cfg item n offset = .error (.duplicateLabel item n) := by
  obtain ⟨a, ha⟩ := Option.ne_none_iff_exists'.1 bound
  rw [Assembly.bind, ha]

/-- What binding keeps of the pass. -/
theorem bind_keeps {s s' : Assembly} {cfg : Config} {item offset : Nat} {n : LabelName}
    (h : s.bind cfg item n offset = .ok s') : s'.ir = s.ir ∧ s'.len = s.len := by
  unfold Assembly.bind at h
  split at h
  · cases h
  · cases h
    exact ⟨rfl, rfl⟩

/-- With no instruction before it, a suffix label is an error (R238, D38). -/
theorem add_suffixL_of_empty {s : Assembly} (h : s.ir = []) (cfg : Config) (item : Nat) (n : LabelName) :
    s.add cfg item (.suffixL n) = .error (.suffixLabelWithoutInstruction item n) := by
  simp [Assembly.add, h]

/-- After an instruction, a suffix label binds to that instruction's start (R238, C2). -/
theorem add_suffixL_of_ir {s : Assembly} {ir : List IrEntry} {e : IrEntry} (h : s.ir = ir ++ [e]) (cfg : Config)
    (item : Nat) (n : LabelName) : s.add cfg item (.suffixL n) = s.bind cfg item n (s.len - e.length) := by
  simp [Assembly.add, h]

/-- Settles O55: an `Nll` label is a binding at the length so far. -/
theorem prefixLabelsBindOnce : Obligations.PrefixLabelsBindOnce := by
  unfold Obligations.PrefixLabelsBindOnce
  intro cfg s item n
  exact ⟨fun new => bind_of_new new cfg item s.len, fun bound => bind_of_bound bound cfg item s.len⟩

/-- Settles O56: a suffix label is a binding at the start of the last entry, if the IR has one. -/
theorem suffixLabelsBindThePrecedingInstruction : Obligations.SuffixLabelsBindThePrecedingInstruction := by
  unfold Obligations.SuffixLabelsBindThePrecedingInstruction
  intro cfg s item n
  refine ⟨fun empty => add_suffixL_of_empty empty cfg item n, fun ir e last new => ?_, fun nonempty bound => ?_⟩
  · rw [add_suffixL_of_ir last]
    exact bind_of_new new cfg item _
  · rw [add_suffixL_of_ir (List.dropLast_concat_getLast nonempty).symm]
    exact bind_of_bound bound cfg item _

/-! ## What fits a position -/

theorem isRegister_iff (o : SymOperand) : o.isRegister = true ↔ ∃ r, o.base = .register r := by
  obtain ⟨base, modifier⟩ := o
  cases base <;> simp [SymOperand.isRegister]

theorem isLabel_iff (o : SymOperand) : o.isLabel = true ↔ ∃ n, o.base = .label n := by
  obtain ⟨base, modifier⟩ := o
  cases base <;> simp [SymOperand.isLabel]

theorem takesLabel_iff (k : Kind) : k.takesLabel = true ↔ k ∈ [.krz, .malkrz, .inj] := by
  cases k <;> decide

/-- The ten comparisons by name (R146). -/
theorem isComparison_iff (k : Kind) : k.isComparison = true ↔
    k ∈ [.llonys, .xtlonys, .xolonys, .xylonys, .clo, .niv, .llo, .xtlo, .xolo, .xylo] := by
  cases k <;> decide

/-- The operand counts by name (R99). -/
theorem arity_eq (k : Kind) : k.arity = if k ∈ [.inj, .lat, .latsna] then 3 else 2 := by
  cases k <;> decide

/-- Within the operand count, every position after a is a destination, but for the comparisons (R101). -/
theorem isDestination_iff {k : Kind} {j : Nat} {p : OperandPos} (inside : j < k.arity)
    (at_j : OperandPos.inOrder[j]? = some p) : k.isDestination p = true ↔ j ≠ 0 ∧ k.isComparison = false := by
  match j with
  | 0 =>
    cases at_j
    simp [Kind.isDestination]
  | 1 =>
    cases at_j
    cases form : k.form <;> simp [Kind.isDestination, Kind.isComparison, form]
  | 2 =>
    cases at_j
    cases form : k.form <;> simp [Kind.arity, Kind.isDestination, Kind.isComparison, form] at inside ⊢
  | _ + 3 => cases at_j

/-- The shape check by base and modifier (R231, D28). -/
theorem shapeOk_iff (o : SymOperand) : o.shapeOk = true ↔ ((∀ r, o.base ≠ .register r) → o.modifier = .none) := by
  simp only [SymOperand.shapeOk, Bool.or_eq_true, isRegister_iff, decide_eq_true_eq, ← not_exists]
  exact or_iff_not_imp_left

/-- An operand of an encodable shape is pending (R231). -/
theorem pending_isSome_of_shapeOk {o : SymOperand} (h : o.shapeOk = true) : o.pending.isSome = true := by
  rw [Option.isSome_iff_ne_none, Ne, pending_none_iff]
  rintro ⟨notRegister, modified⟩
  exact modified ((shapeOk_iff o).1 h notRegister)

/-- A register-based operand is pending as a register or memory form. -/
theorem pending_of_isRegister {o : SymOperand} (h : o.isRegister = true) : ∃ l, o.pending = some (.resolved (.loc l)) := by
  obtain ⟨base, modifier⟩ := o
  obtain ⟨r, rfl⟩ := (isRegister_iff _).1 h
  cases modifier with
  | none => exact ⟨.reg r, rfl⟩
  | address => exact ⟨.mem (.regInd r), rfl⟩
  | secondRegister q => exact ⟨.mem (.regReg r q), rfl⟩
  | displacement d => exact ⟨.mem (displacementForm r d), rfl⟩

/-- What position and kind ask of the operand at place `j`, counted from 0, by base and modifier: an encodable shape
(R231, D28), a register base after operand a but for the comparisons (R234, D29), a label only where one is taken (R235). -/
def FitsPlace (k : Kind) (j : Nat) (o : SymOperand) : Prop :=
  ((∀ r, o.base ≠ .register r) → o.modifier = .none) ∧
  (j ≠ 0 → k ∉ [.llonys, .xtlonys, .xolonys, .xylonys, .clo, .niv, .llo, .xtlo, .xolo, .xylo] →
    ∃ r, o.base = .register r) ∧
  ((∃ n, o.base = .label n) → j = 0 ∧ k ∈ [.krz, .malkrz, .inj])

/-- Position a is place 0. -/
theorem position_eq_a_iff {j : Nat} {p : OperandPos} (at_j : OperandPos.inOrder[j]? = some p) : p = .a ↔ j = 0 := by
  match j with
  | 0 => cases at_j; decide
  | 1 => cases at_j; decide
  | 2 => cases at_j; decide
  | _ + 3 => cases at_j

/-- The model's check of a position is the one by place. -/
theorem fits_iff {k : Kind} {j : Nat} {p : OperandPos} (o : SymOperand) (inside : j < k.arity)
    (at_j : OperandPos.inOrder[j]? = some p) : SymOperand.fits k p o = true ↔ FitsPlace k j o := by
  rw [FitsPlace, ← shapeOk_iff, ← isComparison_iff, ← takesLabel_iff, ← isLabel_iff, ← isRegister_iff]
  simp only [SymOperand.fits, Bool.and_eq_true, Bool.or_eq_true, Bool.not_eq_true', decide_eq_true_eq,
    or_iff_not_imp_left, Bool.not_eq_false, Bool.not_eq_true, isDestination_iff inside at_j, position_eq_a_iff at_j,
    and_imp, and_assoc]

/-- What fits a destination position is register-based (R234). -/
theorem isRegister_of_fits {k : Kind} {p : OperandPos} {o : SymOperand} (fits : SymOperand.fits k p o = true)
    (dest : k.isDestination p = true) : o.isRegister = true := by
  simp only [SymOperand.fits, dest, Bool.not_true, Bool.false_or, Bool.and_eq_true] at fits
  obtain ⟨⟨-, register⟩, -⟩ := fits
  exact register

/-! ## IR-building calls -/

/-- The operand count, and every operand fits the position at its place (R234). -/
theorem wellFormed_iff_positions (i : SymInstr) : i.wellFormed = true ↔ i.operands.length = i.kind.arity ∧
    ∀ (j : Nat) (p : OperandPos) (o : SymOperand), OperandPos.inOrder[j]? = some p → i.operands[j]? = some o →
      SymOperand.fits i.kind p o = true := by
  simp only [SymInstr.wellFormed, Bool.and_eq_true, decide_eq_true_eq, List.all_eq_true, List.mem_iff_getElem?,
    Prod.forall, List.getElem?_zip_eq_some]
  exact and_congr_right fun _ => ⟨fun h j p o hp ho => h p o ⟨j, hp, ho⟩, fun h p o ⟨j, hp, ho⟩ => h j p o hp ho⟩

/-- Every place within the operand count has a position. -/
theorem exists_position {k : Kind} {j : Nat} (inside : j < k.arity) : ∃ p, OperandPos.inOrder[j]? = some p := by
  have listed : j < OperandPos.inOrder.length := Nat.lt_of_lt_of_le inside (arity_le k)
  exact ⟨_, List.getElem?_eq_getElem listed⟩

/-- The operand count of R99, and every operand fits its place. -/
theorem wellFormed_iff (i : SymInstr) : i.wellFormed = true ↔
    i.operands.length = (if i.kind ∈ [.inj, .lat, .latsna] then 3 else 2) ∧
    ∀ (j : Nat) (o : SymOperand), i.operands[j]? = some o → FitsPlace i.kind j o := by
  rw [wellFormed_iff_positions, ← arity_eq]
  refine and_congr_right fun count => ?_
  have inside {j : Nat} {o : SymOperand} (ho : i.operands[j]? = some o) : j < i.kind.arity :=
    count ▸ (List.getElem?_eq_some_iff.1 ho).1
  constructor
  · intro h j o ho
    obtain ⟨p, hp⟩ := exists_position (inside ho)
    exact (fits_iff o (inside ho) hp).1 (h j p o hp ho)
  · intro h j p o hp ho
    exact (fits_iff o (inside ho) hp).2 (h j o ho)

/-- Every operand of a well-formed instruction is pending. -/
theorem pending_isSome_of_wellFormed {i : SymInstr} (w : i.wellFormed = true) {o : SymOperand} (ho : o ∈ i.operands) :
    o.pending.isSome = true := by
  obtain ⟨j, hj⟩ := List.mem_iff_getElem?.1 ho
  obtain ⟨shape, -, -⟩ := ((wellFormed_iff i).1 w).2 j o hj
  exact pending_isSome_of_shapeOk ((shapeOk_iff o).2 shape)

/-- There is a first operand that does not fit exactly if not all of them fit. -/
theorem badOperand_eq_none_iff (i : SymInstr) : i.badOperand = none ↔
    ((OperandPos.inOrder.zip i.operands).all fun po => SymOperand.fits i.kind po.1 po.2) = true := by
  simp only [SymInstr.badOperand, Option.map_eq_none_iff, List.find?_eq_none, List.all_eq_true, Bool.not_eq_true',
    Bool.not_eq_false]

/-- An IR-building call accepts exactly the well-formed instructions, and gives their entry (R232, R234). -/
theorem buildEntry_ok_iff {item : Nat} {i : SymInstr} {e : IrEntry} : buildEntry item i = .ok e ↔
    i.wellFormed = true ∧ e = ⟨i.kind, i.operands.filterMap SymOperand.pending, item⟩ := by
  rw [SymInstr.wellFormed, Bool.and_eq_true, decide_eq_true_eq, ← badOperand_eq_none_iff, buildEntry]
  by_cases count : i.operands.length = i.kind.arity
  · cases bad : i.badOperand <;> simp [count, eq_comm]
  · simp [count]

/-- Every failure of an IR-building call is BadOperandShape (R265). -/
theorem buildEntry_error {item : Nat} {i : SymInstr} {f : AsmFault} (h : buildEntry item i = .error f) :
    ∃ p, f = .badOperandShape item p := by
  unfold buildEntry at h
  split at h
  · cases h
    exact ⟨_, rfl⟩
  split at h
  · cases h
    exact ⟨_, rfl⟩
  · cases h

/-- A built entry has its instruction's kind and pending operands (R232). -/
theorem kind_operands_of_buildEntry {item : Nat} {i : SymInstr} {e : IrEntry} (h : buildEntry item i = .ok e) :
    e.kind = i.kind ∧ e.operands.map some = i.operands.map SymOperand.pending := by
  obtain ⟨w, rfl⟩ := buildEntry_ok_iff.1 h
  refine ⟨rfl, ?_⟩
  rw [List.map_filterMap, List.filterMap_eq_map_iff_forall_eq_some]
  intro o ho
  obtain ⟨q, hq⟩ := Option.isSome_iff_exists.1 (pending_isSome_of_wellFormed w ho)
  rw [hq, Option.map_some]

/-- Settles O57: the call's own check is `SymInstr.wellFormed`, which is read off place by place. -/
theorem buildAcceptsExactlyTheWellFormed : Obligations.BuildAcceptsExactlyTheWellFormed := by
  unfold Obligations.BuildAcceptsExactlyTheWellFormed
  intro item i
  have accepts : (∃ e, buildEntry item i = .ok e) ↔ i.wellFormed = true := by simp [buildEntry_ok_iff]
  exact ⟨accepts, accepts.trans (wellFormed_iff i), fun e => kind_operands_of_buildEntry, fun f => buildEntry_error⟩

/-! ## The pass over the source -/

/-- What the pass keeps: every entry was built by an IR-building call, and the length is the entries' (R232, R233). -/
structure PassInvariant (s : Assembly) : Prop where
  built : ∀ e ∈ s.ir, ∃ item i, buildEntry item i = .ok e
  len : s.len = (s.ir.map IrEntry.length).sum

/-- What one source item does to the IR and the length: it appends the entry that it built, or it binds a label. -/
theorem add_cases {s s' : Assembly} {cfg : Config} {item : Nat} {x : SourceItem} (h : s.add cfg item x = .ok s') :
    (∃ i e, buildEntry item i = .ok e ∧ s'.ir = s.ir ++ [e] ∧ s'.len = s.len + e.length) ∨
      (s'.ir = s.ir ∧ s'.len = s.len) := by
  cases x with
  | instr i =>
    cases he : buildEntry item i with
    | error f => simp [Assembly.add, he] at h
    | ok e =>
      simp only [Assembly.add, he, Except.ok.injEq] at h
      subst h
      exact .inl ⟨i, e, he, rfl, rfl⟩
  | nll n => exact .inr (bind_keeps h)
  | suffixL n =>
    obtain empty | ⟨ir, e, last⟩ := List.eq_nil_or_concat' s.ir
    · rw [add_suffixL_of_empty empty] at h
      cases h
    · rw [add_suffixL_of_ir last] at h
      exact .inr (bind_keeps h)

theorem add_keeps_invariant {s s' : Assembly} {cfg : Config} {item : Nat} {x : SourceItem} (inv : PassInvariant s)
    (h : s.add cfg item x = .ok s') : PassInvariant s' := by
  obtain ⟨i, e, he, ir, len⟩ | ⟨ir, len⟩ := add_cases h
  · refine ⟨fun e' he' => ?_, by simp [ir, len, inv.len]⟩
    rw [ir, List.mem_append, List.mem_singleton] at he'
    obtain old | rfl := he'
    · exact inv.built e' old
    · exact ⟨item, i, he⟩
  · exact ⟨ir ▸ inv.built, by rw [ir, len, inv.len]⟩

theorem pass_keeps_invariant {cfg : Config} {source : List SourceItem} {s s' : Assembly} {item : Nat}
    (inv : PassInvariant s) (h : s.pass cfg item source = .ok s') : PassInvariant s' := by
  induction source generalizing s item with
  | nil =>
    cases h
    exact inv
  | cons x xs ih =>
    unfold Assembly.pass at h
    split at h
    next => cases h
    next added => exact ih (add_keeps_invariant inv added) h

/-- A finished build meets the invariant: the pass begins with no entry and length 0. -/
theorem invariant_of_build {cfg : Config} {source : List SourceItem} {s : Assembly} (h : build cfg source = .ok s) :
    PassInvariant s :=
  pass_keeps_invariant ⟨by simp, rfl⟩ h

/-! ## Resolving an entry -/

/-- Resolving fails only for an unbound label, with its name (R242). -/
theorem resolve_error_iff {labels : List (LabelName × Word)} {item : Nat} {q : PendingOperand} {f : AsmFault} :
    q.resolve labels item = .error f ↔
      ∃ n, q = .label n ∧ labelAddress labels n = none ∧ f = .unboundLabel item n := by
  cases q with
  | resolved o => simp [PendingOperand.resolve]
  | label n => cases h : labelAddress labels n <;> simp [PendingOperand.resolve, h, eq_comm]

/-- Resolving a label gives the 32-bit form of the address bound to it (R97, R241). -/
theorem resolve_label_ok_iff {labels : List (LabelName × Word)} {item : Nat} {n : LabelName} {o : Operand} :
    (PendingOperand.label n).resolve labels item = .ok o ↔
      ∃ a, labelAddress labels n = some a ∧ labelOperand a = o := by
  cases h : labelAddress labels n <;> simp [PendingOperand.resolve, h]

/-- A resolved operand has the length that the build counted (R97, R233). -/
theorem length_of_resolve {labels : List (LabelName × Word)} {item : Nat} {q : PendingOperand} {o : Operand}
    (h : q.resolve labels item = .ok o) : o.length = q.length := by
  cases q with
  | resolved o' =>
    cases h
    rfl
  | label n =>
    obtain ⟨a, -, rfl⟩ := resolve_label_ok_iff.1 h
    rfl

/-- Resolving a list of operands is resolving each of them. -/
theorem resolveOperands_ok_iff {labels : List (LabelName × Word)} {item : Nat} {qs : List PendingOperand}
    {ops : List Operand} : resolveOperands labels item qs = .ok ops ↔
      List.Forall₂ (fun q o => q.resolve labels item = .ok o) qs ops := by
  induction qs generalizing ops with
  | nil => simp [resolveOperands, eq_comm]
  | cons q qs ih =>
    simp only [List.forall₂_cons_left_iff, ← ih, resolveOperands]
    cases q.resolve labels item with
    | error f => simp
    | ok o => cases resolveOperands labels item qs <;> simp [eq_comm]

/-- A failure of resolving a list of operands is that of one of them. -/
theorem resolveOperands_error {labels : List (LabelName × Word)} {item : Nat} {qs : List PendingOperand} {f : AsmFault}
    (h : resolveOperands labels item qs = .error f) : ∃ q ∈ qs, q.resolve labels item = .error f := by
  induction qs with
  | nil => cases h
  | cons q qs ih =>
    unfold resolveOperands at h
    split at h
    next failed =>
      cases h
      exact ⟨q, List.mem_cons_self, failed⟩
    next =>
      split at h
      next failed =>
        cases h
        obtain ⟨q', mem, hq'⟩ := ih failed
        exact ⟨q', List.mem_cons_of_mem q mem, hq'⟩
      next => cases h

/-- The operand resolved at a place is that of the pending operand there. -/
theorem resolveOperands_getElem? {labels : List (LabelName × Word)} {item j : Nat} {qs : List PendingOperand}
    {ops : List Operand} {o : Operand} (h : resolveOperands labels item qs = .ok ops) (ho : ops[j]? = some o) :
    ∃ q, qs[j]? = some q ∧ q.resolve labels item = .ok o := by
  have resolved := resolveOperands_ok_iff.1 h
  obtain ⟨inside, rfl⟩ := List.getElem?_eq_some_iff.1 ho
  have inside' : j < qs.length := resolved.length_eq ▸ inside
  exact ⟨qs[j], List.getElem?_eq_getElem inside', resolved.get inside' inside⟩

/-- The operands resolved from an entry have the entry's length. -/
theorem lengths_of_resolveOperands {labels : List (LabelName × Word)} {item : Nat} {qs : List PendingOperand}
    {ops : List Operand} (h : resolveOperands labels item qs = .ok ops) :
    ops.map Operand.length = qs.map PendingOperand.length := by
  rw [← List.forall₂_eq_eq_eq, List.forall₂_map_left_iff, List.forall₂_map_right_iff]
  exact ((resolveOperands_ok_iff.1 h).imp fun _ _ => length_of_resolve).flip

/-- An entry stands for the instruction of its kind and its resolved operands (R241). -/
theorem entry_instr_ok_iff {labels : List (LabelName × Word)} {e : IrEntry} {i : Instr} :
    e.instr labels = .ok i ↔ i.kind = e.kind ∧ resolveOperands labels e.item e.operands = .ok i.operands := by
  rw [IrEntry.instr]
  cases resolveOperands labels e.item e.operands with
  | error f => simp
  | ok ops =>
    simp only [Except.ok.injEq]
    rw [eq_comm (a := ops), ← instr_eq_some_iff]
    cases Kind.instr e.kind ops <;> simp

/-- The instruction's length is the one known when its entry was built (R233). -/
theorem length_of_entry_instr {labels : List (LabelName × Word)} {e : IrEntry} {i : Instr}
    (h : e.instr labels = .ok i) : i.length = e.length := by
  obtain ⟨-, resolved⟩ := entry_instr_ok_iff.1 h
  rw [Instr.length, IrEntry.length, lengths_of_resolveOperands resolved]

/-! ## A built entry fails only for an unbound label -/

/-- Operands build an instruction of a kind if their count is the kind's and the destinations are registers or memory. -/
theorem exists_instr {k : Kind} {ops : List Operand} (count : ops.length = k.arity)
    (dest : ∀ (j : Nat) (p : OperandPos) (o : Operand), OperandPos.inOrder[j]? = some p → ops[j]? = some o →
      k.isDestination p = true → ∃ l, o = .loc l) : ∃ i, Kind.instr k ops = some i := by
  cases form : k.form with
  | srcDst mk =>
    rw [Kind.arity, form] at count
    obtain ⟨a, b, rfl⟩ := List.length_eq_two.1 count
    obtain ⟨l, rfl⟩ := dest 1 .b b rfl rfl (by simp only [Kind.isDestination, form])
    exact ⟨mk a l, (instr_of_srcDst form _ _).2 ⟨a, l, rfl, rfl⟩⟩
  | srcSrc mk =>
    rw [Kind.arity, form] at count
    obtain ⟨a, b, rfl⟩ := List.length_eq_two.1 count
    exact ⟨mk a b, (instr_of_srcSrc form _ _).2 ⟨a, b, rfl, rfl⟩⟩
  | srcDstDst mk =>
    rw [Kind.arity, form] at count
    obtain ⟨a, b, c, rfl⟩ := List.length_eq_three.1 count
    obtain ⟨l, rfl⟩ := dest 1 .b b rfl rfl (by simp only [Kind.isDestination, form])
    obtain ⟨m, rfl⟩ := dest 2 .c c rfl rfl (by simp only [Kind.isDestination, form])
    exact ⟨mk a l m, (instr_of_srcDstDst form _ _).2 ⟨a, l, m, rfl, rfl⟩⟩

/-- The pending operand at a place of a built entry is that of the symbolic operand there. -/
theorem pending_of_built {item j : Nat} {i : SymInstr} {e : IrEntry} {q : PendingOperand}
    (h : buildEntry item i = .ok e) (hq : e.operands[j]? = some q) : ∃ o, i.operands[j]? = some o ∧ o.pending = some q := by
  obtain ⟨-, operands⟩ := kind_operands_of_buildEntry h
  have at_j := congrArg (·[j]?) operands
  simpa [hq, eq_comm] using at_j

/-- A destination of a built entry is resolved to a register or memory form (R234). -/
theorem built_destination {item j : Nat} {i : SymInstr} {e : IrEntry} {p : OperandPos} {q : PendingOperand}
    (h : buildEntry item i = .ok e) (hp : OperandPos.inOrder[j]? = some p) (hq : e.operands[j]? = some q)
    (dest : e.kind.isDestination p = true) : ∃ l, q = .resolved (.loc l) := by
  obtain ⟨o, ho, pending⟩ := pending_of_built h hq
  obtain ⟨w, rfl⟩ := buildEntry_ok_iff.1 h
  obtain ⟨-, fits⟩ := (wellFormed_iff_positions i).1 w
  obtain ⟨l, hl⟩ := pending_of_isRegister (isRegister_of_fits (fits j p o hp ho) dest)
  exact ⟨l, Option.some.inj (pending.symm.trans hl)⟩

/-- The resolved operands of a built entry build an instruction: its shape was checked by the call (R234). -/
theorem exists_instr_of_built {labels : List (LabelName × Word)} {item : Nat} {i : SymInstr} {e : IrEntry}
    {ops : List Operand} (h : buildEntry item i = .ok e) (resolved : resolveOperands labels e.item e.operands = .ok ops) :
    ∃ x, Kind.instr e.kind ops = some x := by
  refine exists_instr ?_ fun j p o hp ho dest => ?_
  · obtain ⟨kind, operands⟩ := kind_operands_of_buildEntry h
    obtain ⟨w, -⟩ := buildEntry_ok_iff.1 h
    obtain ⟨count, -⟩ := (wellFormed_iff_positions i).1 w
    calc ops.length = e.operands.length := (resolveOperands_ok_iff.1 resolved).length_eq.symm
      _ = i.operands.length := by simpa using congrArg List.length operands
      _ = e.kind.arity := by rw [count, kind]
  · obtain ⟨q, hq, resolvedAt⟩ := resolveOperands_getElem? resolved ho
    obtain ⟨l, rfl⟩ := built_destination h hp hq dest
    cases resolvedAt
    exact ⟨l, rfl⟩

/-- A built entry fails only for a label of its own that is not bound. -/
theorem entry_instr_error {labels : List (LabelName × Word)} {item : Nat} {i : SymInstr} {e : IrEntry} {f : AsmFault}
    (built : buildEntry item i = .ok e) (h : e.instr labels = .error f) :
    ∃ n, .label n ∈ e.operands ∧ labelAddress labels n = none ∧ f = .unboundLabel e.item n := by
  unfold IrEntry.instr at h
  split at h
  next failed =>
    cases h
    obtain ⟨q, mem, hq⟩ := resolveOperands_error failed
    obtain ⟨n, rfl, unbound, fault⟩ := resolve_error_iff.1 hq
    exact ⟨n, mem, unbound, fault⟩
  next resolved =>
    obtain ⟨x, hx⟩ := exists_instr_of_built built resolved
    simp [hx] at h

/-- The labels of an entry that stands for an instruction are bound. -/
theorem labels_bound_of_entry_instr {labels : List (LabelName × Word)} {e : IrEntry} {i : Instr} {n : LabelName}
    (h : e.instr labels = .ok i) (mem : .label n ∈ e.operands) : labelAddress labels n ≠ none := by
  obtain ⟨-, resolved⟩ := entry_instr_ok_iff.1 h
  obtain ⟨j, inside, at_j⟩ := List.mem_iff_getElem.1 mem
  have each := resolveOperands_ok_iff.1 resolved
  have label_resolved := each.get inside (each.length_eq ▸ inside)
  rw [List.get_eq_getElem, at_j, resolve_label_ok_iff] at label_resolved
  obtain ⟨a, bound, -⟩ := label_resolved
  simp [bound]

/-! ## Emission -/

/-- The walk emits the first entry's instruction and goes on (R241). -/
theorem emitEntries_cons_ok_iff {cfg : Config} {labels : List (LabelName × Word)} {e : IrEntry} {es : List IrEntry}
    {bytes : List Byte} : emitEntries cfg labels (e :: es) = .ok bytes ↔
      ∃ i rest, e.instr labels = .ok i ∧ emitEntries cfg labels es = .ok rest ∧ encode cfg i ++ rest = bytes := by
  rw [emitEntries]
  cases e.instr labels with
  | error f => simp
  | ok i => cases emitEntries cfg labels es <;> simp

/-- The bytes of the entries up to a place come before those of the entries from there on. -/
theorem emitEntries_append {cfg : Config} {labels : List (LabelName × Word)} {es fs : List IrEntry} {bytes : List Byte}
    (h : emitEntries cfg labels (es ++ fs) = .ok bytes) :
    ∃ front back, emitEntries cfg labels es = .ok front ∧ emitEntries cfg labels fs = .ok back ∧ front ++ back = bytes := by
  induction es generalizing bytes with
  | nil => exact ⟨[], bytes, rfl, h, rfl⟩
  | cons e es ih =>
    obtain ⟨i, rest, hi, hrest, rfl⟩ := emitEntries_cons_ok_iff.1 h
    obtain ⟨front, back, hfront, hback, rfl⟩ := ih hrest
    exact ⟨encode cfg i ++ front, back, emitEntries_cons_ok_iff.2 ⟨i, front, hi, hfront, rfl⟩, hback,
      List.append_assoc _ _ _⟩

/-- The entries' bytes are as many as the build counted (R233). -/
theorem emitEntries_length {cfg : Config} {labels : List (LabelName × Word)} {es : List IrEntry} {bytes : List Byte}
    (h : emitEntries cfg labels es = .ok bytes) : bytes.length = (es.map IrEntry.length).sum := by
  induction es generalizing bytes with
  | nil =>
    cases h
    rfl
  | cons e es ih =>
    obtain ⟨i, rest, hi, hrest, rfl⟩ := emitEntries_cons_ok_iff.1 h
    simp [encode_length, length_of_entry_instr hi, ih hrest]

/-- An entry's instruction is emitted at the entry's offset, the lengths of the entries before it. -/
theorem emitEntries_at {cfg : Config} {labels : List (LabelName × Word)} {before after : List IrEntry} {e : IrEntry}
    {bytes : List Byte} (h : emitEntries cfg labels (before ++ e :: after) = .ok bytes) :
    ∃ i front back, e.instr labels = .ok i ∧ front.length = (before.map IrEntry.length).sum ∧
      bytes = front ++ (encode cfg i ++ back) := by
  obtain ⟨front, tail, hfront, htail, rfl⟩ := emitEntries_append h
  obtain ⟨i, back, hi, -, rfl⟩ := emitEntries_cons_ok_iff.1 htail
  exact ⟨i, front, back, hi, emitEntries_length hfront, rfl⟩

/-- A failure of emission is that of an entry. -/
theorem emitEntries_error {cfg : Config} {labels : List (LabelName × Word)} {es : List IrEntry} {f : AsmFault}
    (h : emitEntries cfg labels es = .error f) : ∃ e ∈ es, e.instr labels = .error f := by
  induction es with
  | nil => cases h
  | cons e es ih =>
    unfold emitEntries at h
    split at h
    next failed =>
      cases h
      exact ⟨e, List.mem_cons_self, failed⟩
    next =>
      split at h
      next failed =>
        cases h
        obtain ⟨e', mem, he'⟩ := ih failed
        exact ⟨e', List.mem_cons_of_mem e mem, he'⟩
      next => cases h

/-- Emission of a finished build fails only for an unbound label of an entry (R242). -/
theorem emit_error {cfg : Config} {s : Assembly} {f : AsmFault} (inv : PassInvariant s) (h : emit cfg s = .error f) :
    ∃ e ∈ s.ir, ∃ n, .label n ∈ e.operands ∧ labelAddress s.labels n = none ∧ f = .unboundLabel e.item n := by
  obtain ⟨e, mem, failed⟩ := emitEntries_error h
  obtain ⟨item, i, built⟩ := inv.built e mem
  exact ⟨e, mem, entry_instr_error built failed⟩

/-- Settles O58: an emitted entry's labels are bound, and a built entry fails only for an unbound one. -/
theorem emissionFailsOnlyForUnboundLabels : Obligations.EmissionFailsOnlyForUnboundLabels := by
  unfold Obligations.EmissionFailsOnlyForUnboundLabels
  intro cfg source s finished
  have inv := invariant_of_build finished
  refine ⟨⟨?_, fun bound => ?_⟩, fun f failed => ?_⟩
  · rintro ⟨bytes, emitted⟩ e mem n label
    obtain ⟨before, after, ir⟩ := List.append_of_mem mem
    rw [emit, ir] at emitted
    obtain ⟨i, -, -, hi, -⟩ := emitEntries_at emitted
    exact labels_bound_of_entry_instr hi label
  · cases emitted : emit cfg s with
    | ok bytes => exact ⟨bytes, rfl⟩
    | error f =>
      obtain ⟨e, mem, n, label, unbound, -⟩ := emit_error inv emitted
      exact absurd unbound (bound e mem n label)
  · obtain ⟨e, -, n, -, unbound, fault⟩ := emit_error inv failed
    exact ⟨e.item, n, fault, unbound⟩

/-- Reading a list from a place on gives the bytes that stand there. -/
theorem streamHas_getD (front bs back : List Byte) :
    StreamHas (fun j => (front ++ (bs ++ back)).getD (front.length + j) 0) 0 bs := by
  rw [streamHas_iff]
  intro j hj
  simp [List.getElem?_append, hj]

/-- Settles O59: the image is the entries' instructions one after the other, and each decodes from its own bytes. -/
theorem emittedImageDecodesToTheIr : Obligations.EmittedImageDecodesToTheIr := by
  unfold Obligations.EmittedImageDecodesToTheIr
  intro cfg source s bytes w finished emitted
  refine ⟨(emitEntries_length emitted).trans (invariant_of_build finished).len.symm, fun before e after ir => ?_⟩
  rw [emit, ir] at emitted
  obtain ⟨i, front, back, hi, offset, rfl⟩ := emitEntries_at emitted
  obtain ⟨kind, operands⟩ := entry_instr_ok_iff.1 hi
  refine ⟨i, kind, operands, ?_⟩
  rw [← offset, ← length_of_entry_instr hi, ← encode_length cfg i]
  exact decodeAfterEncode cfg i _ w (streamHas_getD front (encode cfg i) back)

end Sys2Proof.Machine
end

section
/-! PROOFS. The events that are no instruction's (60_exceptions.md): the debug trap, the halt at the return sentinel, and
the abort of a run whose image does not fit. -/

namespace Sys2Proof.Machine

/-- Settles O40: the step is the debug trap, whose two reads touch bytes but change none that the state shows. -/
theorem debugTrapLogsAndReturns : Obligations.DebugTrapLogsAndReturns := by
  unfold Obligations.DebugTrapLogsAndReturns
  intro s running atTrap notReturn
  obtain ⟨m, trap⟩ := debugTrap_fields s
  exact ⟨s.debugTrap, step_of_debug_sentinel running notReturn atTrap, by rw [trap], by rw [trap], by rw [trap],
    by rw [trap, running], peek_debugTrap s, touched_debugTrap s⟩

/-- An image that does not fit, on integers (D34), aborts the run just created (R293). -/
theorem startRun_of_overflow {cfg : Config} (seed : Nat) {image : List Byte}
    (overflow : 2 ^ 32 < cfg.loadBase.toNat + image.length) :
    startRun cfg seed image = (State.created cfg seed).raise (.imageOverflow cfg.loadBase image.length) :=
  if_pos overflow

/-- Settles O50: the run starts in a terminal status, and a terminal status has no step. -/
theorem imageOverflowAbortsBeforeAnyStep : Obligations.ImageOverflowAbortsBeforeAnyStep := by
  unfold Obligations.ImageOverflowAbortsBeforeAnyStep
  intro cfg seed image overflow
  have aborted : (startRun cfg seed image).status = .aborted (.imageOverflow cfg.loadBase image.length) := by
    rw [startRun_of_overflow seed overflow, raise_status]
  exact ⟨aborted, terminalStatusHasNoStep _ (by simp [aborted])⟩

/-- Settles O37: the step is the halt of R131, which sets the status alone. -/
theorem stepHaltsAtTheReturnSentinel : Obligations.StepHaltsAtTheReturnSentinel := by
  unfold Obligations.StepHaltsAtTheReturnSentinel
  intro s running atReturn
  exact step_of_return_sentinel running atReturn

end Sys2Proof.Machine
end

section
/-! PROOFS. The start of a run (70_reset_and_hazards.md R291, R292): the bytes a loaded image shows and touches, and the
first step of its run. -/

namespace Sys2Proof.Machine

/-! ## The loaded image -/

/-- A span that ends within the address space does not wrap: it is an interval. -/
theorem inSpan_iff_of_fits {a : Word} {n : Nat} (fits : a.toNat + n ≤ 2 ^ 32) (x : Word) :
    InSpan a n x ↔ a.toNat ≤ x.toNat ∧ x.toNat < a.toNat + n := by
  unfold InSpan
  bv_omega

/-- No byte is touched before the image is loaded (R290). -/
@[simp] theorem touched_created (cfg : Config) (seed : Nat) (x : Word) : (State.created cfg seed).touched x = false := rfl

/-- Loading touches the image's bytes and no other (R292). -/
theorem touched_startRun {cfg : Config} (seed : Nat) {image : List Byte}
    (fits : cfg.loadBase.toNat + image.length ≤ 2 ^ 32) (x : Word) :
    (startRun cfg seed image).touched x = true ↔ InSpan cfg.loadBase image.length x := by
  simp [startRun_of_fits seed fits, touched_writeBytes]

/-- Byte `j` of the image is shown at `LOAD_BASE + j` (R292). -/
theorem peek_startRun {cfg : Config} (seed : Nat) {image : List Byte}
    (fits : cfg.loadBase.toNat + image.length ≤ 2 ^ 32) {j : Nat} (h : j < image.length) :
    (startRun cfg seed image).peek (cfg.loadBase + BitVec.ofNat 32 j) = image[j] := by
  rw [startRun_of_fits seed fits]
  exact peek_writeBytes_inside _ _ _ j h (by omega)

/-- Settles O49: the image's bytes are touched, so reading one draws nothing and returns the byte the state shows. -/
theorem loaderCopiesTheImage : Obligations.LoaderCopiesTheImage := by
  unfold Obligations.LoaderCopiesTheImage
  intro cfg seed image fits
  refine ⟨fun j h => ?_, fun x => (touched_startRun seed fits x).trans (inSpan_iff_of_fits fits x)⟩
  have inside : InSpan cfg.loadBase image.length (cfg.loadBase + BitVec.ofNat 32 j) := by
    unfold InSpan
    bv_omega
  rw [readByte_of_touched ((touched_startRun seed fits _).2 inside), peek_startRun seed fits h]

/-! ## The first step -/

/-- The first fetches return the image from its first byte on, since XX starts at `LOAD_BASE` (R291, R292). -/
theorem streamHas_startRun {cfg : Config} (seed : Nat) {image : List Byte}
    (fits : cfg.loadBase.toNat + image.length ≤ 2 ^ 32) : StreamHas (startRun cfg seed image).stream 0 image := by
  obtain ⟨regs, -⟩ := runStartsAtTheLoadBase cfg seed image fits
  rw [streamHas_iff]
  intro j h
  rw [State.stream, regs, Nat.zero_add, peek_startRun seed fits h]

/-- The first step fetches, unless `LOAD_BASE` is a sentinel (R131 to R133). -/
theorem startRun_fetches {cfg : Config} (seed : Nat) {image : List Byte}
    (fits : cfg.loadBase.toNat + image.length ≤ 2 ^ 32) (notReturn : cfg.loadBase ≠ cfg.retSentinel)
    (notDebug : cfg.loadBase ≠ cfg.dbgSentinel) : (startRun cfg seed image).Fetches := by
  obtain ⟨regs, -, -, running, sameCfg⟩ := runStartsAtTheLoadBase cfg seed image fits
  exact {
    running := running
    notReturn := by rwa [regs, sameCfg]
    notDebug := by rwa [regs, sameCfg] }

/-- Settles O52: the stream begins with the instruction's bytes, which decode to it under the run's parameters. -/
theorem firstStepRunsTheImagesFirstInstruction : Obligations.FirstStepRunsTheImagesFirstInstruction := by
  unfold Obligations.FirstStepRunsTheImagesFirstInstruction
  intro cfg seed i rest legal fits notReturn notDebug
  obtain ⟨-, -, -, -, sameCfg⟩ := runStartsAtTheLoadBase cfg seed _ fits
  obtain ⟨instructionBytes, -⟩ := (streamHas_append _ 0 _ rest).1 (streamHas_startRun seed fits)
  refine stepRunsTheDecodedInstruction _ ⟨i, (encode cfg i).length⟩ (startRun_fetches seed fits notReturn notDebug) ?_
  rw [sameCfg]
  exact decodeAfterEncode cfg i _ legal instructionBytes

end Sys2Proof.Machine
end
